-- ==== Sys2Proof/Word.lean ====
section
/-! DEFINITION. The word types of HiAE-CORE: bytes, 128-bit Blocks, the 2048-bit state register. -/

namespace Sys2Proof

/-- A byte (00_scope.md R7). -/
abbrev Byte := BitVec 8

/-- A Block, 16 bytes; byte `i` is bits `8i+7 .. 8i` (00_scope.md R7, R5 `BLOCK_BYTES`; log 27). -/
abbrev Block := BitVec 128

/-- The state register `S[0..15]` in logical order (10_state.md R10, R12): sixteen Blocks by type. -/
abbrev StateReg := Vector Block 16

end Sys2Proof
end

