-- ==== Sys2Proof/Syntax.lean ====
section
/-! DEFINITION. The commands: one constructor per row of spec/opcode_table.json (30_encoding.md R42). -/

namespace Sys2Proof

/-- A command. All operands but DECP's byte count come from ports and buffers (30_encoding.md R41, R46). -/
inductive Instr where
  /-- INIT (41_cipherstate.md R64). -/
  | init
  /-- ABSORB (R66). -/
  | absorb
  /-- ENC (R67). -/
  | enc
  /-- DEC (R68). -/
  | dec
  /-- DECP n (R69): `n` is `nBytes`, the `arg` field (30_encoding.md R43). -/
  | decp (n : BitVec 4)
  /-- FINAL (R70). -/
  | final
  /-- ENCRYPT (42_modes.md R74). -/
  | encrypt
  /-- DECRYPT (R75). -/
  | decrypt
  /-- MAC (R76). -/
  | mac
  /-- STREAM (R77). -/
  | stream
deriving DecidableEq, Repr

end Sys2Proof
end

