-- ==== Sys2Proof/WellFormed.lean ====
section
/-! DEFINITION. Which terms of `Instr` are commands of the hardware. -/

namespace Sys2Proof

/-- The one check: DECP's `nBytes` is 1 to 15 (30_encoding.md R43); it is 4 bits wide by type. -/
def Instr.wf : Instr → Bool
  | .decp n => n != 0#4
  | .init => true
  | .absorb => true
  | .enc => true
  | .dec => true
  | .final => true
  | .encrypt => true
  | .decrypt => true
  | .mac => true
  | .stream => true

end Sys2Proof
end

