-- ==== Sys2Proof/Decode.lean ====
section
/-! DEFINITION. The 8-bit command word: its fields, the decoder, total on all 256 words and rejecting by name, and
the encoder (30_encoding.md R41 to R44). -/

namespace Sys2Proof

/-- Why a word is reserved (30_encoding.md R44). -/
inductive Reject where
  /-- `op` is 0x0, 0x7 or 0xC to 0xF. -/
  | reservedOp
  /-- `arg` is not 0 on an `op` other than 0x5. -/
  | nonZeroArg
  /-- The word 0x50: DECP of no bytes. -/
  | zeroBytes
deriving DecidableEq, Repr

/-- What a command word is: a command or, by name, a reserved word. -/
inductive Decoded where
  | command (i : Instr)
  | reserved (why : Reject)
deriving DecidableEq, Repr

/-- Field `op`, bits 7 to 4 (30_encoding.md R41). -/
def opField (w : BitVec 8) : BitVec 4 := w.extractLsb' 4 4

/-- Field `arg`, bits 3 to 0 (30_encoding.md R41). -/
def argField (w : BitVec 8) : BitVec 4 := w.extractLsb' 0 4

/-- A command that takes no immediate: `arg` must be 0 (30_encoding.md R43). -/
def plainCommand (arg : BitVec 4) (i : Instr) : Decoded :=
  if arg = 0#4 then .command i else .reserved .nonZeroArg

/-- The opcode map of 30_encoding.md R42, with the reserved words of R44. -/
def decode (w : BitVec 8) : Decoded :=
  match (opField w).toNat with
  | 0x1 => plainCommand (argField w) .init
  | 0x2 => plainCommand (argField w) .absorb
  | 0x3 => plainCommand (argField w) .enc
  | 0x4 => plainCommand (argField w) .dec
  | 0x5 => if argField w = 0#4 then .reserved .zeroBytes else .command (.decp (argField w))
  | 0x6 => plainCommand (argField w) .final
  | 0x8 => plainCommand (argField w) .encrypt
  | 0x9 => plainCommand (argField w) .decrypt
  | 0xA => plainCommand (argField w) .mac
  | 0xB => plainCommand (argField w) .stream
  | _ => .reserved .reservedOp

/-- The word of a command: `op` then `arg` (30_encoding.md R42). -/
def encode : Instr → BitVec 8
  | .init => 0x1#4 ++ 0x0#4
  | .absorb => 0x2#4 ++ 0x0#4
  | .enc => 0x3#4 ++ 0x0#4
  | .dec => 0x4#4 ++ 0x0#4
  | .decp n => 0x5#4 ++ n
  | .final => 0x6#4 ++ 0x0#4
  | .encrypt => 0x8#4 ++ 0x0#4
  | .decrypt => 0x9#4 ++ 0x0#4
  | .mac => 0xA#4 ++ 0x0#4
  | .stream => 0xB#4 ++ 0x0#4

/-- The command word among the low `nbits` bits of `w`; bits above `nbits` are 0. -/
def tableWord (nbits w : Nat) : BitVec 8 := BitVec.ofNat 8 (w % 2 ^ nbits)

/-- The command the decoder reads from a word numbered as spec/opcode_table.json numbers its bits. -/
def decodeTableWord (nbits w : Nat) : Option Instr :=
  match decode (tableWord nbits w) with
  | .command i => some i
  | .reserved _ => none

end Sys2Proof
end

