-- ==== Sys2Proof/Config.lean ====
section
/-! DEFINITION. What the spec leaves to an implementation: the open parameters of 00_scope.md R6 and the free
values. Nothing here has a body, so no proof can see a value. -/

namespace Sys2Proof

/-- The nine values an entry of the initialisation table may be (41_cipherstate.md R64). -/
inductive InitSource where
  | c0 | c1 | k0 | k1 | nonce | zero | k0XorNonce | k1XorNonce | c0XorC1
deriving DecidableEq, Repr, Inhabited

/-- The open parameters `AESL`, `C0`, `C1`, `INIT_TABLE` (00_scope.md R6, decisions D2 to D4). Every rule is a
function of this record. The table says, slot by slot, which of the nine sources is loaded (R64; log 19). -/
structure Params where
  aesl : Block → Block
  c0 : Block
  c1 : Block
  initTable : Vector InitSource 16
deriving Inhabited

/-- The parameters of the machine that `step` runs: no value of them can be proved (log 1, DEDUCED). -/
opaque Config.params : Params

/-- `N_INSTANCES` is this number plus one (00_scope.md R6, decision D26; log 2). -/
opaque Config.extraInstances : Nat

/-- The number of engines, at least one (00_scope.md R6). -/
def Config.nInstances : Nat := Config.extraInstances + 1

/-- Free values of whole Blocks: the draw, then which Block of it (93_implementation_defined.md U7; log 4). -/
opaque Config.freeBlock : Nat → Nat → Block

/-- Free values of `OUT` bytes: the draw, then the byte's address (93_implementation_defined.md U7; log 4). -/
opaque Config.freeByte : Nat → Nat → Byte

end Sys2Proof
end

