-- ==== Sys2Proof/Machine/BlockAlgebra.lean ====
section
/-! DEFINITION. The block-algebra datapath: XOR, XOR3, ZEROPAD, TRUNCATE, TAIL, LE64, CTEQ on byte strings
(40_blockalgebra.md R50 to R56), and the byte order of a Block (00_scope.md R7). -/

namespace Sys2Proof.Machine

/-- Byte `i` of a Block: bits `8i+7 .. 8i` (00_scope.md R7). -/
def byteOf (b : Block) (i : Nat) : Byte := b.extractLsb' (8 * i) 8

/-- The 16 bytes of a Block in stream order (20_memory.md R27). -/
def toBytes (b : Block) : List Byte := (List.range 16).map (byteOf b)

/-- The Block whose first bytes are `x` and whose other bytes are zero. -/
def ofBytes : List Byte → Block
  | [] => 0#128
  | b :: x => b.setWidth 128 ||| (ofBytes x <<< 8)

/-- `XOR(a, b)`; without a value on unequal lengths (40_blockalgebra.md R50, U1; log 25). On two Blocks it is `^^^`. -/
def xorBytes (a b : List Byte) : Option (List Byte) :=
  if a.length = b.length then some (List.zipWith (· ^^^ ·) a b) else none

/-- `XOR3(a, b, c) = XOR(XOR(a, b), c)` (40_blockalgebra.md R51). -/
def xor3Bytes (a b c : List Byte) : Option (List Byte) := (xorBytes a b).bind (xorBytes · c)

/-- `XOR3` on Blocks (40_blockalgebra.md R51). -/
def xor3 (a b c : Block) : Block := a ^^^ b ^^^ c

/-- `x` with zero bytes up to the next multiple of `n` bytes (40_blockalgebra.md R52). -/
def padTo (n : Nat) (x : List Byte) : List Byte :=
  if x.length % n = 0 then x else x ++ List.replicate (n - x.length % n) 0#8

/-- `ZEROPAD(x, nBits)`; without a value unless `nBits` is a positive multiple of 8 (40_blockalgebra.md R52, U2). -/
def zeroPad (x : List Byte) (nBits : Nat) : Option (List Byte) :=
  if nBits = 0 ∨ nBits % 8 ≠ 0 then none else some (padTo (nBits / 8) x)

/-- The value of `TRUNCATE(x, nBits)` where it has one (40_blockalgebra.md R53). -/
def truncateBits (x : List Byte) (nBits : Nat) : List Byte :=
  let nb := (nBits + 7) / 8
  let q := nBits % 8
  if q = 0 then x.take nb
  else x.take (nb - 1) ++ [x.getD (nb - 1) 0#8 &&& BitVec.ofNat 8 (2 ^ q - 1)]

/-- `TRUNCATE(x, nBits)`; without a value where `nBits` exceeds the string (40_blockalgebra.md R53, U3). -/
def truncate (x : List Byte) (nBits : Nat) : Option (List Byte) :=
  if nBits ≤ 8 * x.length then some (truncateBits x nBits) else none

/-- Output byte `i` of `TAIL`, from byte `start + i` on, at sub-byte offset `sub` (40_blockalgebra.md R54). -/
def tailByte (x : List Byte) (start sub i : Nat) : Byte :=
  let lo := x.getD (start + i) 0#8 >>> sub
  let hi := if sub = 0 ∨ start + i + 1 ≥ x.length then 0#8 else x.getD (start + i + 1) 0#8 <<< (8 - sub)
  lo ||| hi

/-- The value of `TAIL(x, nBits)` where it has one (40_blockalgebra.md R54). -/
def tailBits (x : List Byte) (nBits : Nat) : List Byte :=
  let off := 8 * x.length - nBits
  (List.range ((nBits + 7) / 8)).map (tailByte x (off / 8) (off % 8))

/-- `TAIL(x, nBits)`; without a value where `nBits` exceeds the string (40_blockalgebra.md R54, U3). -/
def tail (x : List Byte) (nBits : Nat) : Option (List Byte) :=
  if nBits ≤ 8 * x.length then some (tailBits x nBits) else none

/-- `LE64(u)`: eight bytes, least significant first (40_blockalgebra.md R55). -/
def le64 (u : BitVec 64) : List Byte := (List.range 8).map fun i => u.extractLsb' (8 * i) 8

/-- The comparator's answer, and how many bytes it read to give it (40_blockalgebra.md R56; log 21). -/
structure Comparison where
  equal : Bool
  reads : Nat
deriving DecidableEq, Repr

/-- The comparator's loop: the OR of the byte differences, and two reads for every position. -/
def ctEqLoop : List Byte → List Byte → Byte × Nat → Byte × Nat
  | x :: xs, y :: ys, acc => ctEqLoop xs ys (acc.1 ||| (x ^^^ y), acc.2 + 2)
  | [], _, acc => acc
  | _ :: _, [], acc => acc

/-- `CTEQ(a, b)`: only the length check may leave early (40_blockalgebra.md R56). -/
def ctEq (a b : List Byte) : Comparison :=
  if a.length ≠ b.length then { equal := false, reads := 0 }
  else
    let r := ctEqLoop a b (0#8, 0)
    { equal := r.1 == 0#8, reads := r.2 }

/-- `ceil(len / 16)`, the number of Blocks of a stream of `len` bytes (30_encoding.md R45). -/
def blockCount (len : Nat) : Nat := (len + 15) / 16

/-- The first `k` 16-byte pieces of a stream, the last one possibly shorter (20_memory.md R27). -/
def pieces : Nat → List Byte → List (List Byte)
  | 0, _ => []
  | k + 1, x => x.take 16 :: pieces k (x.drop 16)

/-- The Blocks of the zero-padded stream, in ascending order (20_memory.md R27, R32, 42_modes.md R73). -/
def blocksOf (x : List Byte) : List Block :=
  (pieces (blockCount x.length) x).map fun piece => ofBytes (padTo 16 piece)

end Sys2Proof.Machine
end

