-- ==== Sys2Proof/Machine/Cipher.lean ====
section
/-! DEFINITION. The CipherState unit: the micro-operations ROL, UPDATE, DIFFUSE and the bodies of the six primitive
commands, over the open parameters (41_cipherstate.md R61 to R70), without ports, phase checks or result codes. -/

namespace Sys2Proof.Machine

/-- The unit inside one command: the state register, and how many UPDATEs the command has performed, which is scratch
and no state (10_state.md R14, 70_reset_and_hazards.md R105; log 21). -/
structure Cipher where
  S : StateReg
  updates : Nat
deriving DecidableEq, Repr

/-- The unit at the start of a command. -/
def Cipher.start (S : StateReg) : Cipher := { S := S, updates := 0 }

/-- `ROL()`: slot `i` takes slot `i + 1`, slot 15 takes slot 0 (41_cipherstate.md R61, conflict C4). -/
def rol (S : StateReg) : StateReg :=
  Vector.ofFn fun i : Fin 16 => S[(i.val + 1) % 16]'(Nat.mod_lt _ (by decide))

/-- `UPDATE(x)` on the state register and the Block `t` it returns (41_cipherstate.md R62, R98). -/
def updateReg (p : Params) (x : Block) (S : StateReg) : StateReg × Block :=
  let t := p.aesl (S[0] ^^^ S[1]) ^^^ x
  let new0 := p.aesl S[13] ^^^ t
  (rol (((S.set 0 new0).set 3 (S[3] ^^^ x)).set 13 (S[13] ^^^ x)), t)

/-- `UPDATE(x)` in the unit. -/
def Cipher.update (p : Params) (x : Block) (c : Cipher) : Cipher × Block :=
  ({ S := (updateReg p x c.S).1, updates := c.updates + 1 }, (updateReg p x c.S).2)

/-- `k` UPDATEs with the same input. -/
def Cipher.repeatUpdate (p : Params) (x : Block) : Nat → Cipher → Cipher
  | 0, c => c
  | k + 1, c => Cipher.repeatUpdate p x k (c.update p x).1

/-- `DIFFUSE_ROUNDS` (00_scope.md R5). -/
def diffuseRounds : Nat := 32

/-- `DIFFUSE(x)` (41_cipherstate.md R63). Irreducible, as the bodies below are: proofs use the equations of Laws/Cipher.lean. -/
@[irreducible] def Cipher.diffuse (p : Params) (x : Block) (c : Cipher) : Cipher := c.repeatUpdate p x diffuseRounds

/-- The Block that an entry of the initialisation table stands for (41_cipherstate.md R64). -/
def sourceValue (p : Params) (k0 k1 n : Block) : InitSource → Block
  | .c0 => p.c0
  | .c1 => p.c1
  | .k0 => k0
  | .k1 => k1
  | .nonce => n
  | .zero => 0#128
  | .k0XorNonce => k0 ^^^ n
  | .k1XorNonce => k1 ^^^ n
  | .c0XorC1 => p.c0 ^^^ p.c1

/-- Stage 1 of INIT: the loaded table (41_cipherstate.md R64). -/
def loadTable (p : Params) (k0 k1 n : Block) : StateReg := p.initTable.map (sourceValue p k0 k1 n)

/-- Key half 0, `KEY[0..16]` (30_encoding.md R45). -/
def keyHalf0 (key : List Byte) : Block := ofBytes (key.take 16)

/-- Key half 1, `KEY[16..32]` (30_encoding.md R45). -/
def keyHalf1 (key : List Byte) : Block := ofBytes ((key.drop 16).take 16)

/-- Stage 3 of INIT: the whitening of slots 9 and 13 (41_cipherstate.md R64). -/
def whiten (k0 k1 : Block) (S : StateReg) : StateReg := (S.set 9 (S[9] ^^^ k0)).set 13 (S[13] ^^^ k1)

/-- The body of INIT: load, diffuse `C0`, whiten, in that order (41_cipherstate.md R64, 70_reset_and_hazards.md R97). -/
@[irreducible] def Cipher.init (p : Params) (key nonce : List Byte) : Cipher :=
  let k0 := keyHalf0 key
  let k1 := keyHalf1 key
  let n := ofBytes (nonce.take 16)
  let c := (Cipher.start (loadTable p k0 k1 n)).diffuse p p.c0
  { c with S := whiten k0 k1 c.S }

/-- The body of ABSORB (41_cipherstate.md R66). -/
@[irreducible] def Cipher.absorb (p : Params) (x : Block) (c : Cipher) : Cipher := (c.update p x).1

/-- The body of ENC: `S[9]` is read before the UPDATE (41_cipherstate.md R67). -/
@[irreducible] def Cipher.enc (p : Params) (m : Block) (c : Cipher) : Cipher × Block :=
  let s9 := c.S[9]
  let r := c.update p m
  (r.1, r.2 ^^^ s9)

/-- The body of DEC: the UPDATE is driven by the recovered plaintext (41_cipherstate.md R68). -/
@[irreducible] def Cipher.dec (p : Params) (ct : Block) (c : Cipher) : Cipher × Block :=
  let t := ct ^^^ c.S[9]
  let m := p.aesl (c.S[0] ^^^ c.S[1]) ^^^ t
  ((c.update p m).1, m)

/-- The body of DECP on the `n` bytes `cn`, with its `n` plaintext bytes (41_cipherstate.md R69, conflict C2). -/
@[irreducible] def Cipher.decPartial (p : Params) (cn : List Byte) (n : Nat) (c : Cipher) : Cipher × List Byte :=
  let ks := xor3 (p.aesl (c.S[0] ^^^ c.S[1])) (ofBytes (padTo 16 cn)) c.S[9]
  let ci := ofBytes (cn ++ tailBits (toBytes ks) (128 - 8 * n))
  let r := c.dec p ci
  (r.1, truncateBits (toBytes r.2) (8 * n))

/-- `LE64(adLenBits) ‖ LE64(msgLenBits)` (20_memory.md R29, 30_encoding.md R45). -/
def lengthBlock (adLenBits msgLenBits : BitVec 64) : Block := ofBytes (le64 adLenBits ++ le64 msgLenBits)

/-- The XOR of the sixteen Blocks (41_cipherstate.md R70). -/
def foldTag (S : StateReg) : Block := S.toList.foldl (· ^^^ ·) 0#128

/-- The body of FINAL: diffuse the length block, fold (41_cipherstate.md R70). -/
@[irreducible] def Cipher.finalize (p : Params) (adLenBits msgLenBits : BitVec 64) (c : Cipher) : Cipher × Block :=
  let c' := c.diffuse p (lengthBlock adLenBits msgLenBits)
  (c', foldTag c'.S)

end Sys2Proof.Machine
end

