-- ==== Sys2Proof/Machine/State.lean ====
section
/-! DEFINITION. The state of one engine instance and of its host's next actions, as plain data, with the state right
after reset (10_state.md R10 to R26, 70_reset_and_hazards.md R94, R106). -/

namespace Sys2Proof.Machine

/-- The lifecycle phase `PHASE` (10_state.md R15). Codes 5 to 7 are never held, so they have no constructor. -/
inductive Phase where
  | uninitialized | initialized | processing | finalized | faulted
deriving DecidableEq, Repr

/-- The result code `ERR` (10_state.md R17). -/
inductive Err where
  | ok | invalidSize | authFail | contract
deriving DecidableEq, Repr

/-- The fifteen registers of the register map, in the order of their numbers 0 to 14 (10_state.md R24). -/
inductive HostReg where
  | cmd | phase | err | keyLen | key | nonceLen | nonce | din | dout | adLenBits | msgLenBits | tag | tagIn
  | adBytes | inBytes
deriving DecidableEq, Repr

/-- The two buffers the engine reads (10_state.md R23). -/
inductive Space where
  | ad | inp
deriving DecidableEq, Repr

/-- A byte-addressed buffer: (address, byte) pairs, addresses strictly rising; an address that is not listed holds no
value (10_state.md R23, R26; log 8). -/
abbrev Memory := List Host.Cell

/-- One write of an operand port by the host (10_state.md R18 to R20). KEY, NONCE and DIN are written as byte strings:
KEY and NONCE whole, DIN from its byte 0 (log 16). -/
inductive PortWrite where
  | keyLen (v : BitVec 16)
  | key (bytes : List Byte)
  | nonceLen (v : BitVec 16)
  | nonce (bytes : List Byte)
  | din (bytes : List Byte)
  | adLenBits (v : BitVec 64)
  | msgLenBits (v : BitVec 64)
  | tagIn (v : Block)
  | adBytes (v : BitVec 64)
  | inBytes (v : BitVec 64)
deriving DecidableEq, Repr

/-- What the host can do between two commands (00_scope.md R9, 70_reset_and_hazards.md R106). -/
inductive HostAction where
  /-- Writes an operand port. -/
  | write (w : PortWrite)
  /-- Stores bytes into `AD` from an address on. -/
  | loadAd (addr : BitVec 64) (bytes : List Byte)
  /-- Stores bytes into `IN` from an address on. -/
  | loadIn (addr : BitVec 64) (bytes : List Byte)
  /-- Places the buffers, with `OUT` sharing storage with `AD` or `IN`, or not (20_memory.md R35; log 13). -/
  | placeBuffers (overlap : Bool)
  /-- Writes register `CMD`, which issues the command (30_encoding.md R41). -/
  | command (w : BitVec 8)
  /-- Reads a register. -/
  | read (r : HostReg)
  /-- Reads a byte of `OUT`. -/
  | readOut (addr : BitVec 64)
  /-- The reset event (70_reset_and_hazards.md R94). -/
  | reset
  /-- Issues the command `w` and, before it completes, acts again on the same instance (20_memory.md R37; log 14). -/
  | actWhileRunning (w : BitVec 8)
deriving DecidableEq, Repr

/-- Which ports hold a value (10_state.md R25, R26): written since reset, by the host or the engine. -/
structure Written where
  /-- How many bytes of `DIN`, from byte 0 on. -/
  din : Nat
  adLenBits : Bool
  msgLenBits : Bool
  tagIn : Bool
  dout : Bool
  tag : Bool
deriving DecidableEq, Repr

/-- The state of one engine instance. -/
structure State where
  /-- The state register (10_state.md R10). -/
  S : StateReg
  /-- Register 1 (R15). -/
  phase : Phase
  /-- Register 2 (R17). -/
  err : Err
  /-- Register 3 (R18). -/
  keyLen : BitVec 16
  /-- Register 4 (R18): the bytes of `KEY` that hold a value, from byte 0 on. -/
  key : List Byte
  /-- Register 5 (R18). -/
  nonceLen : BitVec 16
  /-- Register 6 (R18): the bytes of `NONCE` that hold a value, from byte 0 on. -/
  nonce : List Byte
  /-- Register 7 (R19). -/
  din : Block
  /-- Register 8 (R19). -/
  dout : Block
  /-- Register 9 (R20). -/
  adLenBits : BitVec 64
  /-- Register 10 (R20). -/
  msgLenBits : BitVec 64
  /-- Register 11 (R20). -/
  tag : Block
  /-- Register 12 (R20). -/
  tagIn : Block
  /-- Register 13 (R20). -/
  adBytes : BitVec 64
  /-- Register 14 (R20). -/
  inBytes : BitVec 64
  /-- Which ports hold a value (R25, R26). -/
  written : Written
  /-- Buffer `AD` (R23). -/
  ad : Memory
  /-- Buffer `IN` (R23). -/
  inp : Memory
  /-- Buffer `OUT` (R23). -/
  out : Memory
  /-- How many bytes of `OUT`, from address 0 on, the last macro-command wrote; the others hold no value for the host
  (R26; log 17). -/
  outLen : Nat
  /-- Has the host placed `OUT` over `AD` or `IN` (20_memory.md R35; log 13). -/
  overlap : Bool
  /-- The host's next actions, the next one first (log 9). -/
  host : List HostAction
  /-- How many draws of free values have been taken (log 4). -/
  draws : Nat
deriving DecidableEq, Repr

/-- The reasons the machine stops on a host action for which the hardware has no path. -/
inductive Fault where
  /-- Raised by `hostRead`: a host read of a register that is host-write-only (10_state.md R18, R24). Safe. -/
  | noReadPath (r : HostReg)
  /-- Raised by `hostLoad`: a buffer load that runs past the 64-bit address space (10_state.md R23). Safe. -/
  | noSuchAddress
deriving DecidableEq, Repr

/-- The launches the spec gives no meaning (60_exceptions.md R92), by name. -/
inductive Refusal where
  /-- An instruction without a meaning in this model; no arm of `exec` answers it. Safe. -/
  | notModelled (mnemonic : String)
  /-- Raised by a command's meaning that reads an operand port nothing has written since reset (10_state.md R26,
  60_exceptions.md R92). Safe. -/
  | unwrittenOperand (r : HostReg)
  /-- Raised by a macro-command's meaning that reads a byte of `AD` or `IN` nothing has written (decision D22). Safe. -/
  | unwrittenBuffer (b : Space)
  /-- Raised by `hostRead`: a result port nothing has written (10_state.md R26, 60_exceptions.md R92). Safe. -/
  | unwrittenResult (r : HostReg)
  /-- Raised by `hostReadOut`: a byte of `OUT` the last macro-command did not write (10_state.md R26). Safe. -/
  | unwrittenOut
  /-- Raised by `hostRead` and `hostReadOut`: a result after ContractViolation (60_exceptions.md R92). Safe. -/
  | resultAfterViolation
  /-- Raised by a macro-command's meaning: a length of `2^61` bytes or more (42_modes.md R78). Safe. -/
  | lengthLimit
  /-- Raised by a macro-command's meaning: `OUT` overlaps `AD` or `IN` (20_memory.md R35). Safe. -/
  | bufferOverlap
  /-- Raised by `hostAct`: an action while a command runs (20_memory.md R37). Safe. -/
  | concurrentAccess
  /-- Raised by `portWrite`: a byte string of another width than the port's (10_state.md R18, R19; log 16). Safe. -/
  | portWidth (r : HostReg)
deriving DecidableEq, Repr

/-- No port holds a value (10_state.md R25). -/
def Written.none : Written :=
  { din := 0, adLenBits := false, msgLenBits := false, tagIn := false, dout := false, tag := false }

/-- The machine right after reset (10_state.md R25, 70_reset_and_hazards.md R94). `S`, `din`, `dout`, `adLenBits`,
`msgLenBits`, `tag` and `tagIn` have no value there; the zeros are named values (DESIGN CHOICE, logs 5 and 6) that no
command and no host read can meet. The buffers are host memory: nothing is listed (log 8). -/
def State.reset : State where
  S := Vector.replicate 16 0#128
  phase := .uninitialized
  err := .ok
  keyLen := 0#16
  key := []
  nonceLen := 0#16
  nonce := []
  din := 0#128
  dout := 0#128
  adLenBits := 0#64
  msgLenBits := 0#64
  tag := 0#128
  tagIn := 0#128
  adBytes := 0#64
  inBytes := 0#64
  written := Written.none
  ad := []
  inp := []
  out := []
  outLen := 0
  overlap := false
  host := []
  draws := 0

end Sys2Proof.Machine
end

