-- ==== Sys2Proof/Machine/Flags.lean ====
section
/-! DEFINITION. The two status registers: the codes of `PHASE` and `ERR`, and the phase transition table
(10_state.md R15, R17, 41_cipherstate.md R60). There are no other flags (10_state.md R17). -/

namespace Sys2Proof.Machine

/-- The code of a phase in register `PHASE` (10_state.md R15). -/
def Phase.code : Phase → BitVec 3
  | .uninitialized => 0
  | .initialized => 1
  | .processing => 2
  | .finalized => 3
  | .faulted => 4

/-- The code of a result in register `ERR` (10_state.md R17, 60_exceptions.md R81). -/
def Err.code : Err → BitVec 2
  | .ok => 0
  | .invalidSize => 1
  | .authFail => 2
  | .contract => 3

/-- A data command is valid in Initialized or Processing (41_cipherstate.md R60). -/
def Phase.takesData : Phase → Bool
  | .uninitialized => false
  | .initialized => true
  | .processing => true
  | .finalized => false
  | .faulted => false

/-- Is the phase in `allowed(c)` (41_cipherstate.md R60). -/
def Phase.allows (ph : Phase) : Instr → Bool
  | .init => ph == .uninitialized
  | .absorb => ph.takesData
  | .enc => ph.takesData
  | .dec => ph.takesData
  | .decp _ => ph.takesData
  | .final => ph.takesData
  | .encrypt => ph == .uninitialized
  | .decrypt => ph == .uninitialized
  | .mac => ph == .uninitialized
  | .stream => ph == .uninitialized

/-- `next(c)` on success (41_cipherstate.md R60); STREAM of no bytes leaves Uninitialized as it is. -/
def nextPhase (i : Instr) (s : State) : Phase :=
  match i with
  | .init => .initialized
  | .absorb => .processing
  | .enc => .processing
  | .dec => .processing
  | .decp _ => .processing
  | .final => .finalized
  | .encrypt => .finalized
  | .decrypt => .finalized
  | .mac => .finalized
  | .stream => if s.inBytes = 0#64 then .uninitialized else .finalized

/-- The last action of a command that completes: `PHASE <- next(c); ERR <- OK` (41_cipherstate.md R60). -/
def complete (i : Instr) (s : State) : State := { s with phase := nextPhase i s, err := .ok }

end Sys2Proof.Machine
end

