-- ==== Sys2Proof/Machine/Ops.lean ====
section
/-! DEFINITION. The shared operations: reads and writes of the buffers, the host's port writes, the clearing of the key
ports, taking an exception, the checks before a command, and the reset event. -/

namespace Sys2Proof.Machine

/-- How a command, or an action of the host, ends. -/
abbrev Result := Host.Outcome State Fault Refusal

/-! ### Buffers -/

/-- The canonical form: addresses strictly rising, each a 64-bit address (10_state.md R23; log 8). -/
abbrev Memory.wf (m : Memory) : Prop := m.Pairwise (fun x y => x.1 < y.1) ∧ ∀ c ∈ m, c.1 < 2 ^ 64

/-- The byte at an address; nothing where no byte was written (10_state.md R26). -/
def Memory.read : Memory → Nat → Option Byte
  | [], _ => none
  | c :: m, a => if c.1 = a then some c.2 else Memory.read m a

/-- Stores one byte, keeping the canonical form. -/
def Memory.write : Memory → Nat → Byte → Memory
  | [], a, b => [(a, b)]
  | c :: m, a, b =>
    if a < c.1 then (a, b) :: c :: m
    else if a = c.1 then (a, b) :: m
    else c :: Memory.write m a b

/-- `MemRead(buf, addr, n)`; nothing where a byte of the range was never written (20_memory.md R31, decision D22). -/
def Memory.readBytes (m : Memory) : Nat → Nat → Option (List Byte)
  | _, 0 => some []
  | a, n + 1 =>
    match m.read a, Memory.readBytes m (a + 1) n with
    | some b, some bs => some (b :: bs)
    | _, _ => none

/-- `MemWrite(OUT, addr, n, v)` (20_memory.md R31), and the host's stores. -/
def Memory.writeBytes (m : Memory) : Nat → List Byte → Memory
  | _, [] => m
  | a, b :: bs => Memory.writeBytes (m.write a b) (a + 1) bs

/-! ### Exceptions (60_exceptions.md) -/

/-- The three exceptions (60_exceptions.md R81). -/
inductive Exception where
  | invalidSize | authFail | contract
deriving DecidableEq, Repr

/-- The bytes of `OUT` with any values, one draw of them (60_exceptions.md R84, U7; log 4). -/
def anyBytes (draw : Nat) (m : Memory) : Memory := m.map fun c => (c.1, Config.freeByte draw c.1)

/-- `S`, `DOUT`, `TAG` and `OUT` without defined meaning: any values, which no host read reaches
(60_exceptions.md R84, U7; log 4). DESIGN CHOICE: a value depends on the draw and the place only, so two instances, or two
runs, with equal `draws` get equal values (log 32). -/
def loseMeaning (s : State) : State :=
  { s with
    S := Vector.ofFn fun i : Fin 16 => Config.freeBlock s.draws i.val
    dout := Config.freeBlock s.draws 16
    tag := Config.freeBlock s.draws 17
    written := { s.written with dout := false, tag := false }
    out := anyBytes s.draws s.out
    outLen := 0
    draws := s.draws + 1 }

/-- Taking an exception: what each changes, and nothing else (60_exceptions.md R82, R83, R84, R86). ContractViolation is a
next state in Faulted (DEDUCED, log 3). There is no handler and no return (R87): InvalidSize leaves the instance usable, the other two leave it only to the reset event. -/
def takeException (e : Exception) (s : State) : State :=
  match e with
  | .invalidSize => { s with err := .invalidSize }
  | .authFail =>
    { s with
      phase := .finalized
      out := s.out.writeBytes 0 (List.replicate s.inBytes.toNat 0#8)
      err := .authFail }
  | .contract => { loseMeaning s with phase := .faulted, err := .contract }

/-! ### The checks before a command, in the order phase, length limit, placement, sizes, operands, buffers (log 11) -/

/-- The phase check that every command makes first (41_cipherstate.md R60, 60_exceptions.md R85). -/
def checkPhase (i : Instr) (s : State) (k : Result) : Result :=
  if s.phase.allows i then k else .next (takeException .contract s)

/-- The size check of INIT and of a macro-command's `init` step (60_exceptions.md R82). -/
def checkSizes (s : State) (k : Result) : Result :=
  if s.keyLen = 32#16 ∧ s.nonceLen = 16#16 then k else .next (takeException .invalidSize s)

/-- A byte length that `finalize` can take in bits (42_modes.md R78). -/
def checkLength (len : BitVec 64) (k : Result) : Result :=
  if len.toNat < 2 ^ 61 then k else .refused .lengthLimit

/-- Buffers that do not overlap (20_memory.md R35; log 13). -/
def checkPlacement (s : State) (k : Result) : Result := if s.overlap then .refused .bufferOverlap else k

/-- What every macro-command's launch must meet, read or not read by it: both lengths (42_modes.md R78; log 12), then the
placement (20_memory.md R35). -/
def checkLaunch (s : State) (k : Result) : Result :=
  checkLength s.adBytes <| checkLength s.inBytes <| checkPlacement s k

/-- An operand port's value, if it holds one. The stop is the spec's: "a command that reads an unwritten operand port, is a
fault of the model (a refusal in the sense of `60_exceptions.md` rule R92), not a value" (10_state.md R26; R92 row 4,
decision D22, U8). Every port has a value in `State.reset`; which are written, log 7. -/
def withPort {α : Type} (r : HostReg) (v : Option α) (k : α → Result) : Result :=
  match v with
  | some x => k x
  | none => .refused (.unwrittenOperand r)

/-- The first `len` bytes of a buffer the engine reads, if each holds a value (decision D22). -/
def withBuffer (b : Space) (m : Memory) (len : BitVec 64) (k : List Byte → Result) : Result :=
  match m.readBytes 0 len.toNat with
  | some x => k x
  | none => .refused (.unwrittenBuffer b)

/-! ### Ports -/

/-- The last action of a command that ran INIT: no copy of the key is left (10_state.md R21, decision D16). -/
def clearKeyPorts (s : State) : State := { s with keyLen := 0#16, key := [], nonceLen := 0#16, nonce := [] }

/-- The engine's write of `DOUT` (10_state.md R19). -/
def putDout (b : Block) (s : State) : State := { s with dout := b, written := { s.written with dout := true } }

/-- The engine's write of `TAG` (10_state.md R20). -/
def putTag (b : Block) (s : State) : State := { s with tag := b, written := { s.written with tag := true } }

/-- The engine's write of `OUT[0..]` by a macro-command (42_modes.md R73); MAC writes no byte (R76; log 17). -/
def putOut (x : List Byte) (s : State) : State := { s with out := s.out.writeBytes 0 x, outLen := x.length }

/-- `DIN` with its first bytes replaced (10_state.md R19). -/
def overlayBytes (x : List Byte) (b : Block) : Block := ofBytes (x ++ (toBytes b).drop x.length)

/-- One port write of the host (10_state.md R18 to R20, R24). Writing a length register keeps the bytes of its string
that still exist (log 15); a string of another width than its port is refused (log 16). -/
def portWrite (w : PortWrite) (s : State) : Result :=
  match w with
  | .keyLen v => .next { s with keyLen := v, key := s.key.take v.toNat }
  | .key x => if x.length = s.keyLen.toNat then .next { s with key := x } else .refused (.portWidth .key)
  | .nonceLen v => .next { s with nonceLen := v, nonce := s.nonce.take v.toNat }
  | .nonce x => if x.length = s.nonceLen.toNat then .next { s with nonce := x } else .refused (.portWidth .nonce)
  | .din x =>
    if x.length ≤ 16 then
      .next { s with
        din := overlayBytes x s.din
        written := { s.written with din := max s.written.din x.length } }
    else .refused (.portWidth .din)
  | .adLenBits v => .next { s with adLenBits := v, written := { s.written with adLenBits := true } }
  | .msgLenBits v => .next { s with msgLenBits := v, written := { s.written with msgLenBits := true } }
  | .tagIn v => .next { s with tagIn := v, written := { s.written with tagIn := true } }
  | .adBytes v => .next { s with adBytes := v }
  | .inBytes v => .next { s with inBytes := v }

/-! ### Reset -/

/-- The reset event, in any phase (70_reset_and_hazards.md R94): every register as `State.reset` has it; the buffers are
host memory and stay (10_state.md R25), and so do the host's placement and next actions (log 20). -/
def resetEvent (s : State) : State :=
  { State.reset with
    ad := s.ad, inp := s.inp, out := s.out, outLen := s.outLen, overlap := s.overlap, host := s.host, draws := s.draws }

end Sys2Proof.Machine
end

