-- ==== Sys2Proof/Machine/Operands.lean ====
section
/-! DEFINITION. The operands a command assembles from ports and buffers (30_encoding.md R45, R46, 42_modes.md R73). -/

namespace Sys2Proof.Machine

/-- The first `n` bytes of `DIN`, if they hold values (10_state.md R19, R26). -/
def dinBytes (n : Nat) (s : State) : Option (List Byte) :=
  if n ≤ s.written.din then some ((toBytes s.din).take n) else none

/-- The whole of `DIN`, if it holds a value. -/
def dinBlock (s : State) : Option Block := if 16 ≤ s.written.din then some s.din else none

/-- `KEY[0..KEYLEN]`, if all of it holds values (10_state.md R18, R26). -/
def keyBytes (s : State) : Option (List Byte) := if s.key.length = s.keyLen.toNat then some s.key else none

/-- `NONCE[0..NONCELEN]`, if all of it holds values. -/
def nonceBytes (s : State) : Option (List Byte) := if s.nonce.length = s.nonceLen.toNat then some s.nonce else none

/-- `ADLEN_BITS`, if it holds a value. -/
def adLenOperand (s : State) : Option (BitVec 64) := if s.written.adLenBits then some s.adLenBits else none

/-- `MSGLEN_BITS`, if it holds a value. -/
def msgLenOperand (s : State) : Option (BitVec 64) := if s.written.msgLenBits then some s.msgLenBits else none

/-- `TAGIN`, if it holds a value. -/
def tagInOperand (s : State) : Option Block := if s.written.tagIn then some s.tagIn else none

/-- A bit length given to `finalize` by a macro-command, `8 * len` (30_encoding.md R45). -/
def bitLength (len : Nat) : BitVec 64 := BitVec.ofNat 64 (8 * len)

/-- `addr(j)` (42_modes.md R73). -/
def blockAddr (j : Nat) : Nat := 16 * j

/-- `size(j)` of a buffer of `len` bytes (42_modes.md R73). -/
def blockSize (len j : Nat) : Nat := min 16 (len - 16 * j)

/-- `block(j)` of a buffer of `len` bytes, read at its effective address (42_modes.md R73). -/
def bufferBlock (m : Memory) (len j : Nat) : Option Block :=
  (m.readBytes (blockAddr j) (blockSize len j)).map fun x => ofBytes (padTo 16 x)

end Sys2Proof.Machine
end

