-- ==== Sys2Proof/Machine/Modes.lean ====
section
/-! DEFINITION. The mode sequencer: the four macro-commands ENCRYPT, DECRYPT, MAC, STREAM (42_modes.md R73 to R79). The
pure part works on byte strings: reading a whole buffer first and writing `OUT` last computes what the block-by-block
order does (20_memory.md R34; log 26). -/

namespace Sys2Proof.Machine

/-- Absorbs Blocks in order (42_modes.md R74). -/
def absorbAll (p : Params) : List Block → Cipher → Cipher
  | [], c => c
  | x :: xs, c => absorbAll p xs (c.absorb p x)

/-- Encrypts Blocks in order (42_modes.md R74). -/
def encAll (p : Params) : List Block → Cipher → Cipher × List Block
  | [], c => (c, [])
  | m :: ms, c =>
    let r := c.enc p m
    let rs := encAll p ms r.1
    (rs.1, r.2 :: rs.2)

/-- Decrypts full Blocks in order (42_modes.md R75). -/
def decAll (p : Params) : List Block → Cipher → Cipher × List Block
  | [], c => (c, [])
  | ct :: cts, c =>
    let r := c.dec p ct
    let rs := decAll p cts r.1
    (rs.1, r.2 :: rs.2)

/-- The bytes of Blocks, concatenated (20_memory.md R27). -/
def bytesOf (bs : List Block) : List Byte := bs.flatMap toBytes

/-- What a mode has computed: the unit at its end, the output text, the tag. -/
structure ModeResult where
  cipher : Cipher
  text : List Byte
  tag : Block
deriving DecidableEq, Repr

/-- The body of ENCRYPT on byte strings (42_modes.md R74). -/
@[irreducible] def encryptBytes (p : Params) (key nonce ad msg : List Byte) : ModeResult :=
  let e := encAll p (blocksOf msg) (absorbAll p (blocksOf ad) (Cipher.init p key nonce))
  let f := e.1.finalize p (bitLength ad.length) (bitLength msg.length)
  { cipher := f.1, text := truncateBits (bytesOf e.2) (8 * msg.length), tag := f.2 }

/-- The trailing piece of a ciphertext, if it has one (42_modes.md R75). -/
def decRest (p : Params) (rest : List Byte) (c : Cipher) : Cipher × List Byte :=
  if rest.length = 0 then (c, []) else c.decPartial p rest rest.length

/-- The body of DECRYPT on byte strings, without the comparison: the recovered text and the expected tag
(42_modes.md R75). -/
@[irreducible] def decryptBytes (p : Params) (key nonce ad ct : List Byte) : ModeResult :=
  let full := ct.length / 16
  let d := decAll p ((pieces full ct).map ofBytes) (absorbAll p (blocksOf ad) (Cipher.init p key nonce))
  let r := decRest p (ct.drop (16 * full)) d.1
  let f := r.1.finalize p (bitLength ad.length) (bitLength ct.length)
  { cipher := f.1, text := bytesOf d.2 ++ r.2, tag := f.2 }

/-- The body of MAC on byte strings (42_modes.md R76). -/
@[irreducible] def macBytes (p : Params) (key nonce data : List Byte) : ModeResult :=
  let f := (absorbAll p (blocksOf data) (Cipher.init p key nonce)).finalize p (bitLength data.length) 0#64
  { cipher := f.1, text := [], tag := f.2 }

/-- The body of STREAM for a length above 0 (42_modes.md R77). The discarded finalize is performed (U18; log 18). -/
@[irreducible] def streamBytes (p : Params) (key nonce : List Byte) (len : Nat) : ModeResult :=
  let e := encAll p (List.replicate (blockCount len) 0#128) (Cipher.init p key nonce)
  let f := e.1.finalize p 0#64 (bitLength len)
  { cipher := f.1, text := truncateBits (bytesOf e.2) (8 * len), tag := f.2 }

/-- ENCRYPT over given parameters (42_modes.md R74, R78). -/
def cmdEncrypt (p : Params) (s : State) : Result :=
  checkPhase .encrypt s <|
  checkLaunch s <|
  checkSizes s <|
  withPort .key (keyBytes s) fun key =>
  withPort .nonce (nonceBytes s) fun nonce =>
  withBuffer .ad s.ad s.adBytes fun ad =>
  withBuffer .inp s.inp s.inBytes fun msg =>
  let r := encryptBytes p key nonce ad msg
  .next (complete .encrypt (clearKeyPorts (putTag r.tag (putOut r.text { s with S := r.cipher.S }))))

/-- What DECRYPT leaves before it reports: the plaintext in `OUT`, the key ports cleared, the phase terminal
(42_modes.md R75). -/
def decryptWork (r : ModeResult) (s : State) : State :=
  clearKeyPorts { putOut r.text s with S := r.cipher.S, phase := .finalized }

/-- DECRYPT over given parameters (42_modes.md R75, R78): the comparison comes after all the work, and `TAG` is never
written (decision D17). -/
def cmdDecrypt (p : Params) (s : State) : Result :=
  checkPhase .decrypt s <|
  checkLaunch s <|
  checkSizes s <|
  withPort .key (keyBytes s) fun key =>
  withPort .nonce (nonceBytes s) fun nonce =>
  withPort .tagIn (tagInOperand s) fun tagIn =>
  withBuffer .ad s.ad s.adBytes fun ad =>
  withBuffer .inp s.inp s.inBytes fun ct =>
  let r := decryptBytes p key nonce ad ct
  if (ctEq (toBytes tagIn) (toBytes r.tag)).equal then .next (complete .decrypt (decryptWork r s))
  else .next (takeException .authFail (decryptWork r s))

/-- MAC over given parameters (42_modes.md R76): `IN` is not read, and `INBYTES` only by the launch
check (R78; log 12). -/
def cmdMac (p : Params) (s : State) : Result :=
  checkPhase .mac s <|
  checkLaunch s <|
  checkSizes s <|
  withPort .key (keyBytes s) fun key =>
  withPort .nonce (nonceBytes s) fun nonce =>
  withBuffer .ad s.ad s.adBytes fun data =>
  let r := macBytes p key nonce data
  .next (complete .mac (clearKeyPorts (putTag r.tag { s with S := r.cipher.S, outLen := 0 })))

/-- STREAM over given parameters (42_modes.md R77): `AD` and `IN` are not read, and `ADBYTES` only by
the launch check (R78; log 12). -/
def cmdStream (p : Params) (s : State) : Result :=
  checkPhase .stream s <|
  checkLaunch s <|
  if s.inBytes = 0#64 then .next (complete .stream { s with outLen := 0 }) else
  checkSizes s <|
  withPort .key (keyBytes s) fun key =>
  withPort .nonce (nonceBytes s) fun nonce =>
  let r := streamBytes p key nonce s.inBytes.toNat
  .next (complete .stream (clearKeyPorts (putOut r.text { s with S := r.cipher.S })))

/-- ENCRYPT (42_modes.md R74). -/
def execEncrypt (s : State) : Result := cmdEncrypt Config.params s

/-- DECRYPT (42_modes.md R75). -/
def execDecrypt (s : State) : Result := cmdDecrypt Config.params s

/-- MAC (42_modes.md R76). -/
def execMac (s : State) : Result := cmdMac Config.params s

/-- STREAM (42_modes.md R77). -/
def execStream (s : State) : Result := cmdStream Config.params s

end Sys2Proof.Machine
end

