-- ==== Sys2Proof/Machine/Primitive.lean ====
section
/-! DEFINITION. The meanings of the six primitive commands INIT, ABSORB, ENC, DEC, DECP, FINAL (41_cipherstate.md R64,
R66 to R70). Each `cmd…` is over any parameters; the meaning `exec…` is that at the machine's own. -/

namespace Sys2Proof.Machine

/-- INIT over given parameters (41_cipherstate.md R64). -/
def cmdInit (p : Params) (s : State) : Result :=
  checkPhase .init s <|
  checkSizes s <|
  withPort .key (keyBytes s) fun key =>
  withPort .nonce (nonceBytes s) fun nonce =>
  .next (complete .init (clearKeyPorts { s with S := (Cipher.init p key nonce).S }))

/-- ABSORB over given parameters (41_cipherstate.md R66). -/
def cmdAbsorb (p : Params) (s : State) : Result :=
  checkPhase .absorb s <|
  withPort .din (dinBlock s) fun x =>
  .next (complete .absorb { s with S := ((Cipher.start s.S).absorb p x).S })

/-- ENC over given parameters (41_cipherstate.md R67). -/
def cmdEnc (p : Params) (s : State) : Result :=
  checkPhase .enc s <|
  withPort .din (dinBlock s) fun m =>
  let r := (Cipher.start s.S).enc p m
  .next (complete .enc (putDout r.2 { s with S := r.1.S }))

/-- DEC over given parameters (41_cipherstate.md R68). -/
def cmdDec (p : Params) (s : State) : Result :=
  checkPhase .dec s <|
  withPort .din (dinBlock s) fun ct =>
  let r := (Cipher.start s.S).dec p ct
  .next (complete .dec (putDout r.2 { s with S := r.1.S }))

/-- DECP over given parameters (41_cipherstate.md R69). The word 0x50, `n = 0`, is reserved (30_encoding.md R44); the
decoder never gives it, and it raises ContractViolation here too (R69, "wrong phase, or `n = 0`"; log 23). -/
def cmdDecp (p : Params) (n : BitVec 4) (s : State) : Result :=
  if n = 0#4 then .next (takeException .contract s) else
  checkPhase (.decp n) s <|
  withPort .din (dinBytes n.toNat s) fun cn =>
  let r := (Cipher.start s.S).decPartial p cn n.toNat
  .next (complete (.decp n) (putDout (ofBytes (padTo 16 r.2)) { s with S := r.1.S }))

/-- FINAL over given parameters (41_cipherstate.md R70). -/
def cmdFinal (p : Params) (s : State) : Result :=
  checkPhase .final s <|
  withPort .adLenBits (adLenOperand s) fun adLen =>
  withPort .msgLenBits (msgLenOperand s) fun msgLen =>
  let r := (Cipher.start s.S).finalize p adLen msgLen
  .next (complete .final (putTag r.2 { s with S := r.1.S }))

/-- INIT (41_cipherstate.md R64). -/
def execInit (s : State) : Result := cmdInit Config.params s

/-- ABSORB (41_cipherstate.md R66). -/
def execAbsorb (s : State) : Result := cmdAbsorb Config.params s

/-- ENC (41_cipherstate.md R67). -/
def execEnc (s : State) : Result := cmdEnc Config.params s

/-- DEC (41_cipherstate.md R68). -/
def execDec (s : State) : Result := cmdDec Config.params s

/-- DECP n (41_cipherstate.md R69). -/
def execDecp (n : BitVec 4) (s : State) : Result := cmdDecp Config.params n s

/-- FINAL (41_cipherstate.md R70). -/
def execFinal (s : State) : Result := cmdFinal Config.params s

end Sys2Proof.Machine
end

