-- ==== Sys2Proof/Machine/HostPort.lean ====
section
/-! DEFINITION. The host interface: reads of the registers and of `OUT`, buffer loads, and what each action of the host
does, a command word among them (10_state.md R24, 20_memory.md R37, R40, 70_reset_and_hazards.md R106). -/

namespace Sys2Proof.Machine

/-- What a host read gives. -/
inductive HostValue where
  | phase (code : BitVec 3)
  | err (code : BitVec 2)
  | block (b : Block)
  | byte (b : Byte)
deriving DecidableEq, Repr

/-- How a host read ends: a value, or a stop. -/
abbrev ReadResult := Host.Outcome HostValue Fault Refusal

/-- A result port's value for the host. Both stops are the spec's: after ContractViolation (60_exceptions.md R84, R92 row 5),
and before a command wrote the port, where "a host read of an unwritten result port" is "a refusal in the sense of
`60_exceptions.md` rule R92", "not a value" (10_state.md R26; R92 row 4, decision D22, U8). -/
def resultPort (r : HostReg) (isWritten : Bool) (b : Block) (s : State) : ReadResult :=
  if s.phase = .faulted then .refused .resultAfterViolation
  else if isWritten then .next (.block b) else .refused (.unwrittenResult r)

/-- A host read of a register (10_state.md R24). Only the four read ports have a read path (log 24); reading has no effect
(20_memory.md R40). -/
def hostRead (r : HostReg) (s : State) : ReadResult :=
  match r with
  | .phase => .next (.phase s.phase.code)
  | .err => .next (.err s.err.code)
  | .dout => resultPort .dout s.written.dout s.dout s
  | .tag => resultPort .tag s.written.tag s.tag s
  | .cmd => .fault (.noReadPath .cmd)
  | .keyLen => .fault (.noReadPath .keyLen)
  | .key => .fault (.noReadPath .key)
  | .nonceLen => .fault (.noReadPath .nonceLen)
  | .nonce => .fault (.noReadPath .nonce)
  | .din => .fault (.noReadPath .din)
  | .adLenBits => .fault (.noReadPath .adLenBits)
  | .msgLenBits => .fault (.noReadPath .msgLenBits)
  | .tagIn => .fault (.noReadPath .tagIn)
  | .adBytes => .fault (.noReadPath .adBytes)
  | .inBytes => .fault (.noReadPath .inBytes)

/-- A host read of `OUT[a]`: a byte the last macro-command wrote (10_state.md R23, R26; log 17). -/
def hostReadOut (a : BitVec 64) (s : State) : ReadResult :=
  if s.phase = .faulted then .refused .resultAfterViolation
  else if a.toNat < s.outLen then
    match s.out.read a.toNat with
    | some b => .next (.byte b)
    | none => .refused .unwrittenOut
  else .refused .unwrittenOut

/-- A host read as an action: it changes nothing, and stops where the read has no value. -/
def afterRead (r : ReadResult) (s : State) : Result :=
  match r with
  | .next _ => .next s
  | .fault f => .fault f
  | .refused f => .refused f

/-- A host store into a buffer, with its place in the state; past the address space it stops (log 28). -/
def hostLoad (a : BitVec 64) (x : List Byte) (m : Memory) (k : Memory → State) : Result :=
  if a.toNat + x.length ≤ 2 ^ 64 then .next (k (m.writeBytes a.toNat x)) else .fault .noSuchAddress

/-- A write of register `CMD`: the command runs; a reserved word raises ContractViolation (30_encoding.md R41, R44,
60_exceptions.md R84). -/
def issue (w : BitVec 8) (s : State) : Result :=
  match decode w with
  | .command i => exec i s
  | .reserved _ => .next (takeException .contract s)

/-- What an action of the host does (70_reset_and_hazards.md R106; logs 14 and 30). DESIGN CHOICE, beside 20_memory.md R35:
placing the buffers moves no byte, and a load of `AD` or `IN` leaves `OUT` as it was also while they overlap (log 33). -/
def hostAct (a : HostAction) (s : State) : Result :=
  match a with
  | .write w => portWrite w s
  | .loadAd addr x => hostLoad addr x s.ad fun m => { s with ad := m }
  | .loadIn addr x => hostLoad addr x s.inp fun m => { s with inp := m }
  | .placeBuffers v => .next { s with overlap := v }
  | .command w => issue w s
  | .read r => afterRead (hostRead r s) s
  | .readOut addr => afterRead (hostReadOut addr s) s
  | .reset => .next (resetEvent s)
  | .actWhileRunning _ => .refused .concurrentAccess

/-- Takes the host's next action, if there is one; with none the engine holds its state (60_exceptions.md R93; log 10). -/
def nextAction (s : State) : Result :=
  match s.host with
  | [] => .next s
  | a :: rest => hostAct a { s with host := rest }

end Sys2Proof.Machine
end

