-- ==== Sys2Proof/Machine/Step.lean ====
section
/-! DEFINITION. One step: the host's next action, a command among them. -/

namespace Sys2Proof.Machine

/-- One step of an instance and its host. The engine fetches nothing (10_state.md R16): the host gives each command. -/
def step (s : State) : Host.Outcome State Fault Refusal := nextAction s

/-- `s` with a write of `CMD` as the host's next action (log 9). -/
def State.withFetchWord (s : State) (nbits w : Nat) : State :=
  { s with host := .command (tableWord nbits w) :: s.host }

end Sys2Proof.Machine
end

