-- ==== Sys2Proof/Machine/Assembler.lean ====
section
/-! DEFINITION. The assembler forms: a mnemonic with its operands, as the port loads and the `CMD` write it stands for,
and the default nonce of STREAM (30_encoding.md R47, R48). -/

namespace Sys2Proof.Machine

/-- A line of assembler (30_encoding.md R47). DECP's `n` is the number of its bytes. -/
inductive AsmLine where
  | init (key nonce : List Byte)
  | absorb (block : Block)
  | enc (block : Block)
  | dec (block : Block)
  | decp (bytes : List Byte)
  | final (adLenBits msgLenBits : BitVec 64)
  | encrypt (msg ad key nonce : List Byte)
  | decrypt (ct : List Byte) (tag : Block) (ad key nonce : List Byte)
  | mac (data key nonce : List Byte)
  | stream (length : BitVec 64) (key : List Byte) (nonce : Option (List Byte))
deriving DecidableEq, Repr

/-- Loads `KEYLEN`, `KEY`, `NONCELEN`, `NONCE`. DESIGN CHOICE: the lengths are written modulo `2^16`; a longer string is
then refused as it is written (log 31). -/
def loadKeyNonce (key nonce : List Byte) : List HostAction :=
  [.write (.keyLen (BitVec.ofNat 16 key.length)), .write (.key key),
   .write (.nonceLen (BitVec.ofNat 16 nonce.length)), .write (.nonce nonce)]

/-- Loads `AD` and `ADBYTES`. DESIGN CHOICE: the length is written modulo `2^64`, so `2^64` bytes load and run as none
(log 31). -/
def loadAdBuffer (x : List Byte) : List HostAction :=
  [.loadAd 0#64 x, .write (.adBytes (BitVec.ofNat 64 x.length))]

/-- Loads `IN` and `INBYTES`. DESIGN CHOICE: the length is written modulo `2^64`, as for `AD` (log 31). -/
def loadInBuffer (x : List Byte) : List HostAction :=
  [.loadIn 0#64 x, .write (.inBytes (BitVec.ofNat 64 x.length))]

/-- The assembler's nonce where STREAM's is left out: 16 zero bytes (30_encoding.md R48). -/
def defaultNonce : List Byte := List.replicate 16 0#8

/-- The host actions a line stands for, the `CMD` write last (30_encoding.md R47). DESIGN CHOICE: the count of a DECP line
is taken modulo 16, so a line of 16 bytes, which the spec does not assemble, gives the reserved word 0x50 (log 31). -/
def AsmLine.expand : AsmLine → List HostAction
  | .init key nonce => loadKeyNonce key nonce ++ [.command (encode .init)]
  | .absorb b => [.write (.din (toBytes b)), .command (encode .absorb)]
  | .enc b => [.write (.din (toBytes b)), .command (encode .enc)]
  | .dec b => [.write (.din (toBytes b)), .command (encode .dec)]
  | .decp x => [.write (.din x), .command (encode (.decp (BitVec.ofNat 4 x.length)))]
  | .final ad msg => [.write (.adLenBits ad), .write (.msgLenBits msg), .command (encode .final)]
  | .encrypt msg ad key nonce =>
    loadKeyNonce key nonce ++ loadAdBuffer ad ++ loadInBuffer msg ++ [.command (encode .encrypt)]
  | .decrypt ct tag ad key nonce =>
    loadKeyNonce key nonce ++ loadAdBuffer ad ++ loadInBuffer ct ++ [.write (.tagIn tag), .command (encode .decrypt)]
  | .mac data key nonce => loadKeyNonce key nonce ++ loadAdBuffer data ++ [.command (encode .mac)]
  | .stream len key nonce =>
    loadKeyNonce key (nonce.getD defaultNonce) ++ [.write (.inBytes len), .command (encode .stream)]

/-- A program: its lines' actions in order. -/
def assemble (lines : List AsmLine) : List HostAction := lines.flatMap AsmLine.expand

end Sys2Proof.Machine
end

