-- ==== Sys2Proof/Machine/ClosedForm.lean ====
section
/-! DEFINITION. The closed forms that the spec gives beside its pseudocode: of UPDATE, of the keystream Block, and of the
plaintext of DECP (41_cipherstate.md R62, R67, R68, R69). No meaning uses them; statements compare the machine with them. -/

namespace Sys2Proof.Machine

/-- The state register after `UPDATE(x)`, slot by slot (41_cipherstate.md R62, "Closed form"). -/
def updateClosed (p : Params) (x : Block) (S : StateReg) : StateReg :=
  #v[S[1], S[2], S[3] ^^^ x, S[4], S[5], S[6], S[7], S[8], S[9], S[10], S[11], S[12], S[13] ^^^ x, S[14], S[15],
     p.aesl S[13] ^^^ p.aesl (S[0] ^^^ S[1]) ^^^ x]

/-- `z = AESL(S[0] ^ S[1]) ^ S[9]`, what a Block of data meets (41_cipherstate.md R67, R69). -/
def keystream (p : Params) (S : StateReg) : Block := p.aesl (S[0] ^^^ S[1]) ^^^ S[9]

/-- `m` of DECP: `m[j] = z[j] ^ cn[j]` for `j < n`, zero from there on (41_cipherstate.md R69, "Closed form"). -/
def partialPlain (p : Params) (cn : List Byte) (S : StateReg) : Block :=
  ofBytes ((List.range cn.length).map fun j => byteOf (keystream p S) j ^^^ cn.getD j 0#8)

end Sys2Proof.Machine
end

