-- ==== Sys2Proof/Machine/HeadIndex.lean ====
section
/-! DEFINITION. The realisation of the state register that 10_state.md R13 allows: fixed physical Blocks and a 4-bit head
index. It is not part of the model's state; `Certificates` states that it computes what `updateReg` computes. -/

namespace Sys2Proof.Machine

/-- Physical Blocks and the head index (10_state.md R13). -/
structure HeadReg where
  phys : Vector Block 16
  head : BitVec 4
deriving DecidableEq, Repr

/-- The physical place of logical slot `k`: `(head + k) mod 16` (10_state.md R13). -/
def HeadReg.place (h : HeadReg) (k : BitVec 4) : Fin 16 := (h.head + k).toFin

/-- Reads logical slot `k`. -/
def HeadReg.get (h : HeadReg) (k : BitVec 4) : Block := h.phys[h.place k]

/-- Writes logical slot `k`. -/
def HeadReg.put (h : HeadReg) (k : BitVec 4) (b : Block) : HeadReg := { h with phys := h.phys.set (h.place k) b }

/-- `ROL` as `head <- (head + 1) mod 16`. -/
def HeadReg.rol (h : HeadReg) : HeadReg := { h with head := h.head + 1#4 }

/-- The register in logical order. -/
def HeadReg.logical (h : HeadReg) : StateReg := Vector.ofFn fun k : Fin 16 => h.get (BitVec.ofFin k)

/-- `UPDATE(x)` on this realisation (41_cipherstate.md R62). -/
def HeadReg.update (p : Params) (x : Block) (h : HeadReg) : HeadReg × Block :=
  let t := p.aesl (h.get 0#4 ^^^ h.get 1#4) ^^^ x
  let new0 := p.aesl (h.get 13#4) ^^^ t
  ((((h.put 0#4 new0).put 3#4 (h.get 3#4 ^^^ x)).put 13#4 (h.get 13#4 ^^^ x)).rol, t)

end Sys2Proof.Machine
end

