-- ==== Sys2Proof/Machine/Instances.lean ====
section
/-! DEFINITION. Several engines: the product of independent instances (60_exceptions.md R91, decision D26; log 29). -/

namespace Sys2Proof.Machine

/-- `n` engines with their hosts; they share nothing but the constants of `Config` (60_exceptions.md R91). -/
abbrev System (n : Nat) := Vector State n

/-- How a step of the system ends. -/
abbrev SystemResult (n : Nat) := Host.Outcome (System n) Fault Refusal

/-- All engines right after reset. -/
def System.reset : System Config.nInstances := Vector.replicate Config.nInstances State.reset

/-- One instance takes a step, and no other changes. -/
def System.stepAt {n : Nat} (k : Fin n) (sys : System n) : SystemResult n :=
  match step sys[k] with
  | .next t => .next (sys.set k t)
  | .fault f => .fault f
  | .refused r => .refused r

end Sys2Proof.Machine
end

