-- ==== Sys2Proof/Safety.lean ====
section
/-! DEFINITION. What counts as a good run: the invariant of the state, a run without ContractViolation, a run that ended
well, and the order of commands the host must keep (10_state.md R12, 60_exceptions.md R84, 70_reset_and_hazards.md R96,
R99); and the words statements are made in: key ports loaded, a host that drives the primitive commands, states that
agree on every value that is held. -/

namespace Sys2Proof.Machine

/-- The invariant of every reachable state. -/
structure State.Inv (s : State) : Prop where
  /-- The buffers are in canonical form. -/
  ad_wf : s.ad.wf
  inp_wf : s.inp.wf
  out_wf : s.out.wf
  /-- `KEY` and `NONCE` are no wider than their length registers say (10_state.md R18). -/
  key_width : s.key.length ≤ s.keyLen.toNat
  nonce_width : s.nonce.length ≤ s.nonceLen.toNat
  /-- `DIN` is 16 bytes (10_state.md R19). -/
  din_width : s.written.din ≤ 16
  /-- `ERR` is CONTRACT exactly in Faulted (10_state.md R17, 60_exceptions.md R84). -/
  faulted_iff : s.phase = .faulted ↔ s.err = .contract
  /-- After InvalidSize the instance is still Uninitialized (60_exceptions.md R82). -/
  invalidSize_phase : s.err = .invalidSize → s.phase = .uninitialized
  /-- After AuthenticationFailure the instance is Finalized (60_exceptions.md R83). -/
  authFail_phase : s.err = .authFail → s.phase = .finalized
  /-- A byte of `OUT` that the last macro-command wrote holds a value (10_state.md R26). -/
  out_written : ∀ a, a < s.outLen → (s.out.read a).isSome
  /-- No result port holds a value in Faulted (60_exceptions.md R84). -/
  faulted_results : s.phase = .faulted → s.written.dout = false ∧ s.written.tag = false ∧ s.outLen = 0

/-- A run of `k` steps that goes on and raises no ContractViolation on the way (60_exceptions.md R84). -/
def safeRun : Nat → State → Bool
  | 0, s => s.phase != .faulted
  | k + 1, s =>
    s.phase != .faulted &&
    match step s with
    | .next t => safeRun k t
    | .fault _ => false
    | .refused _ => false

/-- The run has ended well: Finalized; Faulted is another phase (70_reset_and_hazards.md R96). -/
def State.endedWell (s : State) : Bool := s.phase == .finalized

/-- The data commands of the encrypting side, then FINAL. -/
def encryptingTail : List Instr → Bool
  | [.final] => true
  | .enc :: rest => encryptingTail rest
  | _ => false

/-- The data commands of the decrypting side, DECP at most once and last, then FINAL. -/
def decryptingTail : List Instr → Bool
  | [.final] => true
  | [.decp _, .final] => true
  | .dec :: rest => decryptingTail rest
  | _ => false

/-- What may follow INIT: absorbs, then one side's data commands, then FINAL. -/
def absorbingTail : List Instr → Bool
  | .absorb :: rest => absorbingTail rest
  | rest => encryptingTail rest || decryptingTail rest

/-- The order of one instance's commands that the host must keep and the engine does not check
(70_reset_and_hazards.md R99); a macro-command keeps it by construction. -/
def hostOrder : List Instr → Bool
  | .init :: rest => absorbingTail rest
  | [.encrypt] => true
  | [.decrypt] => true
  | [.mac] => true
  | [.stream] => true
  | _ => false

/-- The key and nonce ports hold a key and a nonce of the right sizes (10_state.md R18, 41_cipherstate.md R64). -/
structure State.KeyReady (s : State) : Prop where
  keyLen : s.keyLen = 32#16
  key : s.key.length = 32
  nonceLen : s.nonceLen = 16#16
  nonce : s.nonce.length = 16

/-- One action, then another where the first went on. -/
def andThen (r : Result) (k : State → Result) : Result :=
  match r with
  | .next t => k t
  | .fault f => .fault f
  | .refused f => .refused f

/-- The host loads `DIN` and issues a data command (30_encoding.md R47). -/
def issueData (i : Instr) (x : List Byte) (s : State) : Result := andThen (portWrite (.din x) s) (exec i)

/-- The host loads the two lengths and issues FINAL (30_encoding.md R47). -/
def issueFinal (adLenBits msgLenBits : BitVec 64) (s : State) : Result :=
  andThen (portWrite (.adLenBits adLenBits) s) fun t => andThen (portWrite (.msgLenBits msgLenBits) t) (exec .final)

/-- `Drives i xs s ds t`: issuing the data command `i` once for each Block of `xs`, from `s` on, leaves `t`, and `ds` are
the values of `DOUT` after each (95_test_vectors.md P1, P2). -/
inductive Drives (i : Instr) : List Block → State → List Block → State → Prop where
  | done (s : State) : Drives i [] s [] s
  | more {x : Block} {xs : List Block} {s t u : State} {ds : List Block} :
      issueData i (toBytes x) s = .next t → Drives i xs t ds u → Drives i (x :: xs) s (t.dout :: ds) u

/-- Two states that agree on everything the spec says is held: they may differ in `S` before INIT and in ports that
nothing has written (10_state.md R25, R26). -/
structure SameHeld (s t : State) : Prop where
  S : s.phase ≠ .uninitialized → s.S = t.S
  phase : s.phase = t.phase
  err : s.err = t.err
  keyLen : s.keyLen = t.keyLen
  key : s.key = t.key
  nonceLen : s.nonceLen = t.nonceLen
  nonce : s.nonce = t.nonce
  din : ∀ i, i < s.written.din → byteOf s.din i = byteOf t.din i
  dout : s.written.dout = true → s.dout = t.dout
  adLenBits : s.written.adLenBits = true → s.adLenBits = t.adLenBits
  msgLenBits : s.written.msgLenBits = true → s.msgLenBits = t.msgLenBits
  tag : s.written.tag = true → s.tag = t.tag
  tagIn : s.written.tagIn = true → s.tagIn = t.tagIn
  adBytes : s.adBytes = t.adBytes
  inBytes : s.inBytes = t.inBytes
  written : s.written = t.written
  ad : s.ad = t.ad
  inp : s.inp = t.inp
  out : s.out = t.out
  outLen : s.outLen = t.outLen
  overlap : s.overlap = t.overlap
  host : s.host = t.host
  draws : s.draws = t.draws

/-- Two outcomes that agree on everything that is held. -/
def SameOutcome (a b : Result) : Prop :=
  match a, b with
  | .next s, .next t => SameHeld s t
  | .fault f, .fault g => f = g
  | .refused f, .refused g => f = g
  | _, _ => False

end Sys2Proof.Machine
end

