-- ==== Sys2Proof/Certificates/Slice0/Obligations.lean ====
section
/-! DEFINITION. The statements about HiAE-CORE, from the numbered rules of spec/. -/

open Sys2Proof Sys2Proof.Machine

/-! ### Encoding (30_encoding.md) -/

/-- Decoding the word of a well-formed command gives the command back, in both decoders. -/
def Obligations.DecodeOfEncode : Prop :=
  ∀ i : Instr, i.wf = true → decode (encode i) = .command i ∧ decodeTableWord 8 (encode i).toNat = some i

/-- A word that decodes to a command is the word of that command, and the command is well formed. -/
def Obligations.EncodeOfDecode : Prop :=
  ∀ (w : BitVec 8) (i : Instr), decode w = .command i → encode i = w ∧ i.wf = true

/-- The reserved words are exactly those of R44, 232 of the 256, and each raises ContractViolation in every phase, with
what R84 leaves alone left alone: the operand ports, `AD`, `IN`, and none of a command's work done. That it is a next
state (log 3), and the free values (log 4), are the model's. -/
def Obligations.ReservedWordsExactly : Prop :=
  (∀ w : BitVec 8, (∃ why, decode w = .reserved why) ↔
    ((w >>> 4).toNat ∈ [0x0, 0x7, 0xC, 0xD, 0xE, 0xF] ∨
     ((w >>> 4).toNat ∈ [0x1, 0x2, 0x3, 0x4, 0x6, 0x8, 0x9, 0xA, 0xB] ∧ w &&& 0x0F#8 ≠ 0#8) ∨ w = 0x50#8)) ∧
  ((List.range 256).filter fun w => (decodeTableWord 8 w).isNone).length = 232 ∧
  (∀ (s : State) (w : BitVec 8) (why : Reject) (rest : List HostAction),
    s.host = .command w :: rest → decode w = .reserved why →
    ∃ t, step s = .next t ∧
      t = { s with
        host := rest, phase := .faulted, err := .contract, S := t.S, dout := t.dout, tag := t.tag, out := t.out
        written := { s.written with dout := false, tag := false }, outLen := 0, draws := s.draws + 1 })

/-- Words written out from the opcode map decode to their commands. -/
def Obligations.WordsOfTheTable : Prop :=
  decode 0b00010000#8 = .command .init ∧ decode 0b00100000#8 = .command .absorb ∧
  decode 0b00110000#8 = .command .enc ∧ decode 0b01000000#8 = .command .dec ∧
  decode 0b01010101#8 = .command (.decp 5#4) ∧ decode 0b01100000#8 = .command .final ∧
  decode 0b10000000#8 = .command .encrypt ∧ decode 0b10010000#8 = .command .decrypt ∧
  decode 0b10100000#8 = .command .mac ∧ decode 0b10110000#8 = .command .stream

/-- A write of `CMD` runs the command its word decodes to, on the state without that action; with no action of the host
the engine holds its state (the form is the model's choice: logs 9 and 10). -/
def Obligations.StepRunsTheCommand : Prop :=
  (∀ (s : State) (w : BitVec 8) (i : Instr) (rest : List HostAction),
    s.host = .command w :: rest → decode w = .command i → step s = exec i { s with host := rest }) ∧
  (∀ (s : State) (nbits w : Nat) (i : Instr),
    decodeTableWord nbits w = some i → step (s.withFetchWord nbits w) = exec i s) ∧
  (∀ s : State, s.host = [] → step s = .next s)

/-! ### Reset (10_state.md R25, 70_reset_and_hazards.md R94) -/

/-- What the spec states for reset: the registers with a value, and that nothing else holds one. -/
def Obligations.ResetValues : Prop :=
  State.reset.phase = .uninitialized ∧ State.reset.phase.code = 0#3 ∧ State.reset.err = .ok ∧
  State.reset.err.code = 0#2 ∧ State.reset.keyLen = 0#16 ∧ State.reset.key = [] ∧ State.reset.nonceLen = 0#16 ∧
  State.reset.nonce = [] ∧ State.reset.adBytes = 0#64 ∧ State.reset.inBytes = 0#64 ∧
  (State.reset.written.din = 0 ∧ State.reset.written.dout = false ∧ State.reset.written.tag = false ∧
    State.reset.written.tagIn = false ∧ State.reset.written.adLenBits = false ∧
    State.reset.written.msgLenBits = false)

/-- The reset event acts in every phase, gives the reset values, and leaves the buffers and the host's next actions (the
last the model's choice: log 20). -/
def Obligations.ResetEventInEveryPhase : Prop :=
  ∀ (s : State) (rest : List HostAction), s.host = .reset :: rest →
    ∃ t, step s = .next t ∧ t.phase = .uninitialized ∧ t.err = .ok ∧ t.keyLen = 0#16 ∧ t.key = [] ∧
      t.nonceLen = 0#16 ∧ t.nonce = [] ∧ t.adBytes = 0#64 ∧ t.inBytes = 0#64 ∧ t.written.din = 0 ∧
      t.written.dout = false ∧ t.written.tag = false ∧ t.written.tagIn = false ∧ t.written.adLenBits = false ∧
      t.written.msgLenBits = false ∧ t.ad = s.ad ∧ t.inp = s.inp ∧ t.out = s.out ∧ t.host = rest

/-! ### Micro-operations (41_cipherstate.md R61 to R63) -/

/-- ROL shifts every Block down one index, slot 0 to slot 15, and sixteen ROLs are the identity; with a head index, ROL
moves the head by one and no Block. -/
def Obligations.RolRotatesLeft : Prop :=
  (∀ S : StateReg, (∀ (i : Nat) (_ : i < 15), (rol S)[i] = S[i + 1]) ∧ (rol S)[15] = S[0] ∧ rol^[16] S = S) ∧
  (∀ h : HeadReg, h.rol.head = h.head + 1#4 ∧ h.rol.phys = h.phys ∧ h.rol.logical = rol h.logical)

/-- After DIFFUSE slot `k` holds the Block that round `16 + k` entered at slot 15, altered by the input exactly in slots
3 to 12. -/
def Obligations.DiffuseSlotRelation : Prop :=
  ∀ (p : Params) (x : Block) (c : Cipher) (k : Nat) (hk : k < 16),
    (c.diffuse p x).S[k] =
      (c.repeatUpdate p x (16 + k + 1)).S[15] ^^^ (if 3 ≤ k ∧ k ≤ 12 then x else 0#128)

/-- How many UPDATEs each command's body performs (that STREAM performs its discarded finalize is the model's choice:
log 18). -/
def Obligations.UpdatesPerCommand : Prop :=
  ∀ (p : Params) (key nonce ad msg : List Byte) (x : Block) (c : Cipher) (a b : BitVec 64) (len : Nat),
    (Cipher.init p key nonce).updates = 32 ∧
    (c.absorb p x).updates = c.updates + 1 ∧ (c.enc p x).1.updates = c.updates + 1 ∧
    (c.dec p x).1.updates = c.updates + 1 ∧ (c.decPartial p msg msg.length).1.updates = c.updates + 1 ∧
    (c.finalize p a b).1.updates = c.updates + 32 ∧
    (encryptBytes p key nonce ad msg).cipher.updates = 64 + (ad.length + 15) / 16 + (msg.length + 15) / 16 ∧
    (decryptBytes p key nonce ad msg).cipher.updates = 64 + (ad.length + 15) / 16 + (msg.length + 15) / 16 ∧
    (macBytes p key nonce ad).cipher.updates = 64 + (ad.length + 15) / 16 ∧
    (streamBytes p key nonce len).cipher.updates = 64 + (len + 15) / 16

/-! ### Primitive commands (41_cipherstate.md R64 to R70): where each completes, and the whole next state -/

/-- INIT with a key and a nonce of the right sizes: load, 32 UPDATEs with `C0`, whitening of slots 9 and 13; the key
ports are cleared and nothing else changes. -/
def Obligations.InitResult : Prop :=
  ∀ s : State, s.phase = .uninitialized → s.KeyReady →
    let p := Config.params
    let k0 := ofBytes (s.key.take 16)
    let k1 := ofBytes (s.key.drop 16)
    let loaded : StateReg := Vector.ofFn fun i : Fin 16 => sourceValue p k0 k1 (ofBytes s.nonce) p.initTable[i]
    let mixed := (updateClosed p p.c0)^[32] loaded
    exec .init s = .next { s with
      S := (mixed.set 9 (mixed[9] ^^^ k0)).set 13 (mixed[13] ^^^ k1)
      keyLen := 0#16, key := [], nonceLen := 0#16, nonce := [], phase := .initialized, err := .ok }

/-- ABSORB: one UPDATE driven by `DIN`; no port is written. -/
def Obligations.AbsorbResult : Prop :=
  ∀ s : State, s.phase = .initialized ∨ s.phase = .processing → 16 ≤ s.written.din →
    exec .absorb s = .next { s with
      S := updateClosed Config.params s.din s.S, phase := .processing, err := .ok }

/-- ENC: `DOUT = AESL(S[0] ^ S[1]) ^ S[9] ^ DIN` on the old state, and one UPDATE driven by `DIN`. -/
def Obligations.EncResult : Prop :=
  ∀ s : State, s.phase = .initialized ∨ s.phase = .processing → 16 ≤ s.written.din →
    exec .enc s = .next { s with
      S := updateClosed Config.params s.din s.S
      dout := Config.params.aesl (s.S[0] ^^^ s.S[1]) ^^^ s.din ^^^ s.S[9]
      written := { s.written with dout := true }, phase := .processing, err := .ok }

/-- DEC: the plaintext `m` in `DOUT`, and one UPDATE driven by `m`. -/
def Obligations.DecResult : Prop :=
  ∀ s : State, s.phase = .initialized ∨ s.phase = .processing → 16 ≤ s.written.din →
    let m := Config.params.aesl (s.S[0] ^^^ s.S[1]) ^^^ (s.din ^^^ s.S[9])
    exec .dec s = .next { s with
      S := updateClosed Config.params m s.S
      dout := m
      written := { s.written with dout := true }, phase := .processing, err := .ok }

/-- DECP n: the first `n` bytes of `DOUT` are keystream against `DIN[0..n]`, the others zero, and one UPDATE is driven by
that Block; the bytes of `DIN` from `n` on are ignored, and need not be written (the model's choice: log 16). -/
def Obligations.DecpResult : Prop :=
  ∀ (n : BitVec 4) (s : State), n ≠ 0#4 → s.phase = .initialized ∨ s.phase = .processing →
    n.toNat ≤ s.written.din →
    ∃ m : Block,
      (∀ j, j < 16 → byteOf m j =
        if j < n.toNat then byteOf (Config.params.aesl (s.S[0] ^^^ s.S[1]) ^^^ s.S[9]) j ^^^ byteOf s.din j else 0#8) ∧
      exec (.decp n) s = .next { s with
        S := updateClosed Config.params m s.S
        dout := m
        written := { s.written with dout := true }, phase := .processing, err := .ok }

/-- FINAL: 32 UPDATEs with the length block, and `TAG` the XOR of the sixteen slots. -/
def Obligations.FinalResult : Prop :=
  ∀ s : State, s.phase = .initialized ∨ s.phase = .processing → s.written.adLenBits = true →
    s.written.msgLenBits = true →
    let S := (updateClosed Config.params (s.msgLenBits ++ s.adLenBits))^[32] s.S
    exec .final s = .next { s with
      S := S
      tag := S[0] ^^^ S[1] ^^^ S[2] ^^^ S[3] ^^^ S[4] ^^^ S[5] ^^^ S[6] ^^^ S[7] ^^^ S[8] ^^^ S[9] ^^^ S[10] ^^^
        S[11] ^^^ S[12] ^^^ S[13] ^^^ S[14] ^^^ S[15]
      written := { s.written with tag := true }, phase := .finalized, err := .ok }

/-- DEC undoes ENC: the plaintext comes back and the state register is the same. -/
def Obligations.DecUndoesEnc : Prop :=
  ∀ s t : State, s.phase = .initialized ∨ s.phase = .processing → exec .enc s = .next t →
    ∃ u, exec .dec { s with din := t.dout } = .next u ∧ u.dout = s.din ∧ u.S = t.S

/-- DECP undoes the encryption of a zero-padded partial Block, with any bytes of `DIN` from `n` on. -/
def Obligations.DecpUndoesPaddedEnc : Prop :=
  ∀ (n : BitVec 4) (mn rest : List Byte) (s t : State), n ≠ 0#4 → mn.length = n.toNat →
    s.phase = .initialized ∨ s.phase = .processing → s.din = ofBytes mn → exec .enc s = .next t →
    ∃ u, exec (.decp n) { s with din := ofBytes ((toBytes t.dout).take n.toNat ++ rest) } = .next u ∧
      (toBytes u.dout).take n.toNat = mn ∧ u.S = t.S

/-! ### Macro-commands (42_modes.md R74 to R80): where each completes -/

/-- ENCRYPT completes, with the whole next state. `outLen`, here and below, is the model's own field (log 17). -/
def Obligations.EncryptResult : Prop :=
  ∀ (s : State) (ad msg : List Byte), s.phase = .uninitialized → s.KeyReady → s.overlap = false →
    s.adBytes.toNat < 2 ^ 61 → s.inBytes.toNat < 2 ^ 61 →
    s.ad.readBytes 0 s.adBytes.toNat = some ad → s.inp.readBytes 0 s.inBytes.toNat = some msg →
    let r := encryptBytes Config.params s.key s.nonce ad msg
    r.text.length = s.inBytes.toNat ∧
    exec .encrypt s = .next { s with
      S := r.cipher.S, tag := r.tag, written := { s.written with tag := true }
      out := s.out.writeBytes 0 r.text, outLen := s.inBytes.toNat
      keyLen := 0#16, key := [], nonceLen := 0#16, nonce := [], phase := .finalized, err := .ok }

/-- DECRYPT with the expected tag in `TAGIN` completes with the plaintext in `OUT`; `TAG` and `DOUT` are not written. -/
def Obligations.DecryptAccepts : Prop :=
  ∀ (s : State) (ad ct : List Byte), s.phase = .uninitialized → s.KeyReady → s.overlap = false →
    s.adBytes.toNat < 2 ^ 61 → s.inBytes.toNat < 2 ^ 61 → s.written.tagIn = true →
    s.ad.readBytes 0 s.adBytes.toNat = some ad → s.inp.readBytes 0 s.inBytes.toNat = some ct →
    let r := decryptBytes Config.params s.key s.nonce ad ct
    s.tagIn = r.tag →
    r.text.length = s.inBytes.toNat ∧
    exec .decrypt s = .next { s with
      S := r.cipher.S, out := s.out.writeBytes 0 r.text, outLen := s.inBytes.toNat
      keyLen := 0#16, key := [], nonceLen := 0#16, nonce := [], phase := .finalized, err := .ok }

/-- DECRYPT with another tag raises AuthenticationFailure: all the work is done, every byte of `OUT[0..INBYTES]` is zero
and every other byte as before, the instance is Finalized, and `TAG` and `DOUT` are not written. -/
def Obligations.DecryptRejects : Prop :=
  ∀ (s : State) (ad ct : List Byte), s.phase = .uninitialized → s.KeyReady → s.overlap = false →
    s.adBytes.toNat < 2 ^ 61 → s.inBytes.toNat < 2 ^ 61 → s.written.tagIn = true →
    s.ad.readBytes 0 s.adBytes.toNat = some ad → s.inp.readBytes 0 s.inBytes.toNat = some ct →
    let r := decryptBytes Config.params s.key s.nonce ad ct
    s.tagIn ≠ r.tag →
    ∃ t, exec .decrypt s = .next t ∧
      t = { s with
        S := r.cipher.S, out := t.out, outLen := s.inBytes.toNat
        keyLen := 0#16, key := [], nonceLen := 0#16, nonce := [], phase := .finalized, err := .authFail } ∧
      (∀ a, a < s.inBytes.toNat → t.out.read a = some 0#8) ∧
      (∀ a, s.inBytes.toNat ≤ a → t.out.read a = s.out.read a)

/-- MAC completes, with the whole next state; no byte of `OUT` is written, and none has a value for the host (log 17). -/
def Obligations.MacResult : Prop :=
  ∀ (s : State) (data : List Byte), s.phase = .uninitialized → s.KeyReady → s.overlap = false →
    s.adBytes.toNat < 2 ^ 61 → s.inBytes.toNat < 2 ^ 61 →
    s.ad.readBytes 0 s.adBytes.toNat = some data →
    let r := macBytes Config.params s.key s.nonce data
    exec .mac s = .next { s with
      S := r.cipher.S, tag := r.tag, written := { s.written with tag := true }, outLen := 0
      keyLen := 0#16, key := [], nonceLen := 0#16, nonce := [], phase := .finalized, err := .ok }

/-- STREAM of some bytes completes, with the whole next state; `S` is that after the discarded finalize (the model's
choice: log 18). -/
def Obligations.StreamResult : Prop :=
  ∀ s : State, s.phase = .uninitialized → s.KeyReady → s.overlap = false → s.inBytes ≠ 0#64 →
    s.adBytes.toNat < 2 ^ 61 → s.inBytes.toNat < 2 ^ 61 →
    let r := streamBytes Config.params s.key s.nonce s.inBytes.toNat
    r.text.length = s.inBytes.toNat ∧
    exec .stream s = .next { s with
      S := r.cipher.S, out := s.out.writeBytes 0 r.text, outLen := s.inBytes.toNat
      keyLen := 0#16, key := [], nonceLen := 0#16, nonce := [], phase := .finalized, err := .ok }

/-- STREAM of no bytes: no size check, no init, the phase and the key ports stay; `outLen` is the model's (log 17). -/
def Obligations.StreamOfNothing : Prop :=
  ∀ s : State, s.phase = .uninitialized → s.overlap = false → s.adBytes.toNat < 2 ^ 61 → s.inBytes = 0#64 →
    exec .stream s = .next { s with outLen := 0, err := .ok }

/-- ENCRYPT is its expansion into primitive commands: INIT, an ABSORB for each Block of the zero-padded associated data,
an ENC for each Block of the zero-padded message, FINAL with the bit lengths. The state register and `TAG` are the same,
and `OUT` is the ENC outputs, truncated to the message length. -/
def Obligations.EncryptIsItsPrimitives : Prop :=
  ∀ (s t : State) (ad msg : List Byte), s.phase = .uninitialized →
    s.ad.readBytes 0 s.adBytes.toNat = some ad → s.inp.readBytes 0 s.inBytes.toNat = some msg →
    exec .encrypt s = .next t → t.err = .ok →
    ∃ (s1 s2 s3 s4 : State) (ds cs : List Block),
      exec .init s = .next s1 ∧ Drives .absorb (blocksOf ad) s1 ds s2 ∧ Drives .enc (blocksOf msg) s2 cs s3 ∧
      issueFinal (BitVec.ofNat 64 (8 * ad.length)) (BitVec.ofNat 64 (8 * msg.length)) s3 = .next s4 ∧
      t.S = s4.S ∧ t.tag = s4.tag ∧ t.phase = s4.phase ∧
      t.out.readBytes 0 msg.length = some ((cs.flatMap toBytes).take msg.length)

/-- DECRYPT is its expansion into primitive commands: INIT, ABSORBs, a DEC for each full Block, a DECP for a trailing
piece of 1 to 15 bytes, FINAL; it ends in OK exactly if the tag FINAL gives is `TAGIN`, and then `OUT` is the recovered
plaintext. -/
def Obligations.DecryptIsItsPrimitives : Prop :=
  ∀ (s t : State) (ad ct : List Byte), s.phase = .uninitialized →
    s.ad.readBytes 0 s.adBytes.toNat = some ad → s.inp.readBytes 0 s.inBytes.toNat = some ct →
    exec .decrypt s = .next t → t.err ≠ .invalidSize →
    ∃ (s1 s2 s3 s4 s5 : State) (ds ms : List Block),
      exec .init s = .next s1 ∧ Drives .absorb (blocksOf ad) s1 ds s2 ∧
      Drives .dec ((pieces (ct.length / 16) ct).map ofBytes) s2 ms s3 ∧
      (if ct.length % 16 = 0 then s4 = s3
       else issueData (.decp (BitVec.ofNat 4 (ct.length % 16))) (ct.drop (16 * (ct.length / 16))) s3 = .next s4) ∧
      issueFinal (BitVec.ofNat 64 (8 * ad.length)) (BitVec.ofNat 64 (8 * ct.length)) s4 = .next s5 ∧
      t.S = s5.S ∧ (t.err = .ok ↔ s5.tag = s.tagIn) ∧
      (t.err = .ok → t.out.readBytes 0 ct.length =
        some (ms.flatMap toBytes ++ (toBytes s4.dout).take (ct.length % 16)))

/-- Round trip: DECRYPT of what ENCRYPT made, on any fresh instance with the same key, nonce and associated data, gives
the message back with `ERR = OK`. -/
def Obligations.RoundTrip : Prop :=
  ∀ s t u : State, s.phase = .uninitialized → exec .encrypt s = .next t → t.err = .ok →
    u.phase = .uninitialized → u.overlap = false → u.keyLen = s.keyLen → u.key = s.key → u.nonceLen = s.nonceLen →
    u.nonce = s.nonce → u.adBytes = s.adBytes → u.inBytes = s.inBytes →
    (∀ a, a < s.adBytes.toNat → u.ad.read a = s.ad.read a) →
    (∀ a, a < s.inBytes.toNat → u.inp.read a = t.out.read a) →
    u.written.tagIn = true → u.tagIn = t.tag →
    ∃ v, exec .decrypt u = .next v ∧ v.phase = .finalized ∧ v.err = .ok ∧ v.S = t.S ∧
      (∀ a, a < s.inBytes.toNat → v.out.read a = s.inp.read a)

/-- MAC gives the tag of ENCRYPT with the data as associated data and an empty message. -/
def Obligations.MacIsEncryptOfNothing : Prop :=
  ∀ s t : State, s.phase = .uninitialized → exec .mac s = .next t → t.err = .ok →
    ∃ u, exec .encrypt { s with inBytes := 0#64 } = .next u ∧ u.tag = t.tag ∧ u.S = t.S ∧ u.phase = t.phase ∧
      u.err = .ok

/-- STREAM gives the ciphertext of ENCRYPT of that many zero bytes with empty associated data. -/
def Obligations.StreamIsEncryptOfZeros : Prop :=
  ∀ s t : State, s.phase = .uninitialized → s.inBytes ≠ 0#64 →
    exec .stream s = .next t → t.err = .ok →
    ∀ zeros : Memory, (∀ a, a < s.inBytes.toNat → zeros.read a = some 0#8) →
    ∃ u, exec .encrypt { s with adBytes := 0#64, inp := zeros } = .next u ∧ u.out = t.out ∧ u.phase = t.phase ∧
      u.err = .ok

/-- DECRYPT does the same work whatever the received tag: two launches that differ only in `TAGIN` leave the same state
but for `ERR` and the bytes of `OUT[0..INBYTES]`. -/
def Obligations.DecryptWorkIgnoresTag : Prop :=
  ∀ (s t u : State) (b : Block), exec .decrypt s = .next t → exec .decrypt { s with tagIn := b } = .next u →
    t.phase ≠ .faulted →
    u = { t with tagIn := b, err := u.err, out := u.out } ∧
    ∀ a, s.inBytes.toNat ≤ a → u.out.read a = t.out.read a

/-! ### Exceptions and the phase machine (41_cipherstate.md R60, 60_exceptions.md R82 to R85) -/

/-- ContractViolation, whatever the sizes are: a command in a phase that does not allow it, or DECP of no bytes, performs
none of its work; the phase is Faulted, `ERR` is CONTRACT, operand ports and input buffers stay, and no result can be
read. That it is a next state (log 3), and the free values (log 4), are the model's. -/
def Obligations.ContractViolationEntry : Prop :=
  ∀ (i : Instr) (s : State),
    (i ∈ [.init, .encrypt, .decrypt, .mac, .stream] ∧ s.phase ≠ .uninitialized) ∨
    ((i ∈ [.absorb, .enc, .dec, .final] ∨ ∃ n, i = .decp n) ∧ s.phase ≠ .initialized ∧ s.phase ≠ .processing) ∨
    i = .decp 0#4 →
    ∃ t, exec i s = .next t ∧
      t = { s with
        phase := .faulted, err := .contract, S := t.S, dout := t.dout, tag := t.tag, out := t.out
        written := { s.written with dout := false, tag := false }, outLen := 0, draws := s.draws + 1 } ∧
      hostRead .phase t = .next (.phase 4#3) ∧ hostRead .err t = .next (.err 3#2) ∧
      hostRead .dout t = .refused .resultAfterViolation ∧ hostRead .tag t = .refused .resultAfterViolation ∧
      ∀ a, hostReadOut a t = .refused .resultAfterViolation

/-- InvalidSize changes `ERR` and nothing else, and leaves the instance Uninitialized. That a length or an overlap without
meaning is refused before the sizes are looked at is the model's choice (log 11). -/
def Obligations.InvalidSizeEntry : Prop :=
  ∀ (i : Instr) (s : State), i ∈ [.init, .encrypt, .decrypt, .mac, .stream] → s.phase = .uninitialized →
    ¬ (s.keyLen = 32#16 ∧ s.nonceLen = 16#16) → (i = .stream → s.inBytes ≠ 0#64) →
    (i ≠ .init → s.adBytes.toNat < 2 ^ 61 ∧ s.inBytes.toNat < 2 ^ 61 ∧ s.overlap = false) →
    exec i s = .next { s with err := .invalidSize }

/-- PHASE and ERR move only along the transition table: INIT, a data command, FINAL, a macro-command that completes (DECRYPT
with either result), InvalidSize on wrong sizes, STREAM of no bytes, and ContractViolation, which is raised only by a
command in a phase that does not allow it, or by DECP of no bytes. That ContractViolation is a next state is the model's
(log 3), and so is that `exec` takes the term DECP of no bytes (log 23). -/
def Obligations.PhaseMovesAlongTheTable : Prop :=
  ∀ (i : Instr) (s t : State), exec i s = .next t →
    (i = .init ∧ s.phase = .uninitialized ∧ t.phase = .initialized ∧ t.err = .ok) ∨
    ((i ∈ [.absorb, .enc, .dec] ∨ ∃ n, n ≠ 0#4 ∧ i = .decp n) ∧ (s.phase = .initialized ∨ s.phase = .processing) ∧
      t.phase = .processing ∧ t.err = .ok) ∨
    (i = .final ∧ (s.phase = .initialized ∨ s.phase = .processing) ∧ t.phase = .finalized ∧ t.err = .ok) ∨
    (i ∈ [.encrypt, .decrypt, .mac, .stream] ∧ (i = .stream → s.inBytes ≠ 0#64) ∧ s.phase = .uninitialized ∧
      t.phase = .finalized ∧ (t.err = .ok ∨ i = .decrypt ∧ t.err = .authFail)) ∨
    (i ∈ [.init, .encrypt, .decrypt, .mac, .stream] ∧ (i = .stream → s.inBytes ≠ 0#64) ∧
      ¬ (s.keyLen = 32#16 ∧ s.nonceLen = 16#16) ∧ s.phase = .uninitialized ∧ t.phase = .uninitialized ∧
      t.err = .invalidSize) ∨
    (i = .stream ∧ s.inBytes = 0#64 ∧ s.phase = .uninitialized ∧ t.phase = .uninitialized ∧ t.err = .ok) ∨
    (((i ∈ [.init, .encrypt, .decrypt, .mac, .stream] ∧ s.phase ≠ .uninitialized) ∨
      ((i ∈ [.absorb, .enc, .dec, .final] ∨ ∃ n, i = .decp n) ∧ s.phase ≠ .initialized ∧ s.phase ≠ .processing) ∨
      i = .decp 0#4) ∧ t.phase = .faulted ∧ t.err = .contract)

/-- Only the reset event leaves Faulted; every command word there raises ContractViolation again (that this is a next state
is the model's: log 3). -/
def Obligations.FaultedIsSticky : Prop :=
  ∀ s : State, s.phase = .faulted →
    (∀ t, (∀ rest, s.host ≠ .reset :: rest) → step s = .next t → t.phase = .faulted) ∧
    (∀ (w : BitVec 8) (rest : List HostAction), s.host = .command w :: rest →
      ∃ t, step s = .next t ∧ t.phase = .faulted ∧ t.err = .contract)

/-- No copy of the key outlives INIT, or a macro-command that performed an INIT; after InvalidSize the ports hold what they
held. -/
def Obligations.KeyPortsCleared : Prop :=
  ∀ (i : Instr) (s t : State), i ∈ [.init, .encrypt, .decrypt, .mac, .stream] → exec i s = .next t →
    (t.err = .ok ∨ t.err = .authFail → (i = .stream → s.inBytes ≠ 0#64) →
      t.keyLen = 0#16 ∧ t.key = [] ∧ t.nonceLen = 0#16 ∧ t.nonce = []) ∧
    (t.err = .invalidSize →
      t.keyLen = s.keyLen ∧ t.key = s.key ∧ t.nonceLen = s.nonceLen ∧ t.nonce = s.nonce)

/-! ### Launches without meaning (60_exceptions.md R92) -/

/-- A command that would read an operand port nothing has written is refused (10_state.md R26): `DIN`, the bytes of `DIN`
that DECP uses, the two lengths of FINAL, bytes of `KEY` and `NONCE` under the right length registers, `TAGIN`. Which one is
named, and that the phase, the launch's limits and the sizes come first, is the model's choice (log 11). -/
def Obligations.UnwrittenOperandsRefused : Prop :=
  (∀ (i : Instr) (s : State), i ∈ [.absorb, .enc, .dec] → s.phase = .initialized ∨ s.phase = .processing →
    s.written.din < 16 → exec i s = .refused (.unwrittenOperand .din)) ∧
  (∀ (n : BitVec 4) (s : State), n ≠ 0#4 → s.phase = .initialized ∨ s.phase = .processing →
    s.written.din < n.toNat → exec (.decp n) s = .refused (.unwrittenOperand .din)) ∧
  (∀ s : State, s.phase = .initialized ∨ s.phase = .processing → s.written.adLenBits = false →
    exec .final s = .refused (.unwrittenOperand .adLenBits)) ∧
  (∀ s : State, s.phase = .initialized ∨ s.phase = .processing → s.written.adLenBits = true →
    s.written.msgLenBits = false → exec .final s = .refused (.unwrittenOperand .msgLenBits)) ∧
  (∀ (i : Instr) (s : State), i ∈ [.init, .encrypt, .decrypt, .mac, .stream] → s.phase = .uninitialized →
    (i ≠ .init → s.adBytes.toNat < 2 ^ 61 ∧ s.inBytes.toNat < 2 ^ 61 ∧ s.overlap = false) →
    (i = .stream → s.inBytes ≠ 0#64) → s.keyLen = 32#16 → s.nonceLen = 16#16 →
    (s.key.length ≠ 32 → exec i s = .refused (.unwrittenOperand .key)) ∧
    (s.key.length = 32 → s.nonce.length ≠ 16 → exec i s = .refused (.unwrittenOperand .nonce))) ∧
  (∀ s : State, s.phase = .uninitialized → s.KeyReady → s.adBytes.toNat < 2 ^ 61 → s.inBytes.toNat < 2 ^ 61 →
    s.overlap = false → s.written.tagIn = false → exec .decrypt s = .refused (.unwrittenOperand .tagIn))

/-- PHASE and ERR are always readable. `DOUT`, `TAG` and a byte of `OUT` that the last macro-command wrote are read as they
stand; what nothing has written is refused, `OUT` beyond those bytes with it (log 17), and so is every result in Faulted. A
read of a write-only register stops (log 24). -/
def Obligations.HostReads : Prop :=
  ∀ s : State,
    hostRead .phase s = .next (.phase s.phase.code) ∧ hostRead .err s = .next (.err s.err.code) ∧
    (s.phase ≠ .faulted → s.written.dout = false → hostRead .dout s = .refused (.unwrittenResult .dout)) ∧
    (s.phase ≠ .faulted → s.written.dout = true → hostRead .dout s = .next (.block s.dout)) ∧
    (s.phase ≠ .faulted → s.written.tag = false → hostRead .tag s = .refused (.unwrittenResult .tag)) ∧
    (s.phase ≠ .faulted → s.written.tag = true → hostRead .tag s = .next (.block s.tag)) ∧
    (∀ a : BitVec 64, s.phase ≠ .faulted → s.outLen ≤ a.toNat → hostReadOut a s = .refused .unwrittenOut) ∧
    (∀ (a : BitVec 64) (b : Byte), s.phase ≠ .faulted → a.toNat < s.outLen → s.out.read a.toNat = some b →
      hostReadOut a s = .next (.byte b)) ∧
    (s.phase = .faulted → hostRead .dout s = .refused .resultAfterViolation ∧
      hostRead .tag s = .refused .resultAfterViolation ∧ ∀ a, hostReadOut a s = .refused .resultAfterViolation) ∧
    (∀ r : HostReg, r ∉ [.phase, .err, .dout, .tag] → hostRead r s = .fault (.noReadPath r))

/-- A macro-command with `ADBYTES` or `INBYTES` of `2^61` or more, whichever it reads, or with `OUT` over `AD` or `IN`, is
refused, and so is an action while a command runs; the order of these checks is the model's (log 11),
and so is that the placement is a flag (log 13). -/
def Obligations.LaunchesWithoutMeaning : Prop :=
  (∀ (i : Instr) (s : State), s.phase = .uninitialized → i ∈ [.encrypt, .decrypt, .mac, .stream] →
    2 ^ 61 ≤ s.adBytes.toNat ∨ 2 ^ 61 ≤ s.inBytes.toNat → exec i s = .refused .lengthLimit) ∧
  (∀ (i : Instr) (s : State), s.phase = .uninitialized → i ∈ [.encrypt, .decrypt, .mac, .stream] →
    s.adBytes.toNat < 2 ^ 61 → s.inBytes.toNat < 2 ^ 61 → s.overlap = true →
    exec i s = .refused .bufferOverlap) ∧
  (∀ (s : State) (w : BitVec 8) (rest : List HostAction), s.host = .actWhileRunning w :: rest →
    step s = .refused .concurrentAccess)

/-- What nothing has written never matters: two states that agree on every held value end one step alike, in states that
agree on every held value or in the same stop. So no claim depends on the values named at reset for `S`, `DIN`, `DOUT`,
`ADLEN_BITS`, `MSGLEN_BITS`, `TAG`, `TAGIN` (logs 5 and 6). -/
def Obligations.UnheldValuesNeverMatter : Prop :=
  ∀ s t : State, SameHeld s t → SameOutcome (step s) (step t)

/-! ### Datapath (40_blockalgebra.md, 20_memory.md) -/

/-- TRUNCATE keeps bits 0 to `nBits - 1` and clears the rest of its last byte; beyond the string it has no value (log 25). -/
def Obligations.TruncateKeepsFirstBits : Prop :=
  ∀ (x : List Byte) (nBits : Nat),
    (8 * x.length < nBits → truncate x nBits = none) ∧
    (nBits ≤ 8 * x.length → ∃ y, truncate x nBits = some y ∧ y.length = (nBits + 7) / 8 ∧
      ∀ k, k < 8 * y.length → (y.getD (k / 8) 0#8).getLsbD (k % 8) =
        (decide (k < nBits) && (x.getD (k / 8) 0#8).getLsbD (k % 8)))

/-- TAIL gives the last `nBits` bits, re-based to bit 0; beyond the string it has no value (log 25). -/
def Obligations.TailTakesLastBits : Prop :=
  ∀ (x : List Byte) (nBits : Nat),
    (8 * x.length < nBits → tail x nBits = none) ∧
    (nBits ≤ 8 * x.length → ∃ y, tail x nBits = some y ∧ y.length = (nBits + 7) / 8 ∧
      ∀ k, k < 8 * y.length → (y.getD (k / 8) 0#8).getLsbD (k % 8) =
        (decide (k < nBits) &&
          (x.getD ((8 * x.length - nBits + k) / 8) 0#8).getLsbD ((8 * x.length - nBits + k) % 8)))

/-- The laws of ZEROPAD, which appends zero bytes only and the fewest that reach a multiple, and of TRUNCATE and TAIL at full
width. -/
def Obligations.PaddingLaws : Prop :=
  ∀ x : List Byte,
    truncate x (8 * x.length) = some x ∧ tail x (8 * x.length) = some x ∧
    (∀ nBits, 0 < nBits → nBits % 8 = 0 →
      ∃ y k, zeroPad x nBits = some y ∧ zeroPad y nBits = some y ∧ y.length % (nBits / 8) = 0 ∧
        y = x ++ List.replicate k 0#8 ∧ k < nBits / 8) ∧
    (∃ y, zeroPad x 128 = some y ∧ y.length = 16 * ((x.length + 15) / 16) ∧ truncate y (8 * x.length) = some x) ∧
    (∀ (b : Block) (n : Nat), 1 ≤ n → n ≤ 15 →
      ∃ u v, truncate (toBytes b) (8 * n) = some u ∧ tail (toBytes b) (128 - 8 * n) = some v ∧ u ++ v = toBytes b)

/-- The comparator is equality, and on equal lengths it reads every byte of both strings whatever they hold. -/
def Obligations.ComparatorReadsEverything : Prop :=
  ∀ a b : List Byte,
    ((ctEq a b).equal = true ↔ a = b) ∧
    (a.length = b.length → (ctEq a b).reads = 2 * a.length) ∧
    (a.length ≠ b.length → (ctEq a b).reads = 0)

/-- The length block: the associated data's bit length in bytes 0 to 7, the message's in bytes 8 to 15, each least
significant byte first. -/
def Obligations.LengthBlockBytes : Prop :=
  ∀ (a m : BitVec 64) (i : Nat), i < 16 →
    byteOf (lengthBlock a m) i =
      if i < 8 then (a >>> (8 * i)).setWidth 8 else (m >>> (8 * (i - 8))).setWidth 8

/-- The Blocks of a buffer's contents are the Blocks read at the effective addresses, and their bytes are the zero-padded
contents. -/
def Obligations.BlockAddressing : Prop :=
  ∀ (m : Memory) (len : Nat) (x : List Byte), m.readBytes 0 len = some x →
    (blocksOf x).length = (len + 15) / 16 ∧
    (∀ j, j < (len + 15) / 16 → bufferBlock m len j = (blocksOf x)[j]?) ∧
    some ((blocksOf x).flatMap toBytes) = zeroPad x 128

/-! ### Invariant, frames, host writes -/

/-- The state right after reset meets the invariant, whose clauses on `written` and `outLen` are about the model's own
fields (logs 7 and 17). -/
def Obligations.ResetMeetsTheInvariant : Prop := State.reset.Inv

/-- Every step keeps the invariant, from every state that meets it. -/
def Obligations.StepKeepsTheInvariant : Prop :=
  ∀ s t : State, s.Inv → Sys2Proof.core.step s = .next t → t.Inv

/-- What a primitive command leaves alone when it raises no ContractViolation: all buffers and what the host may read of
`OUT`, the operand ports (INIT clears the key ports), `DOUT` but for ENC, DEC and DECP, `TAG` but for FINAL, and the
host's next actions. -/
def Obligations.PrimitiveFrame : Prop :=
  ∀ (i : Instr) (s t : State), i ∈ [.init, .absorb, .enc, .dec, .final] ∨ (∃ n, i = .decp n) →
    exec i s = .next t → t.phase ≠ .faulted →
    (∀ a, t.ad.read a = s.ad.read a ∧ t.inp.read a = s.inp.read a ∧ t.out.read a = s.out.read a) ∧
    t.outLen = s.outLen ∧ t.overlap = s.overlap ∧ t.host = s.host ∧ t.draws = s.draws ∧
    t.din = s.din ∧ t.adLenBits = s.adLenBits ∧ t.msgLenBits = s.msgLenBits ∧ t.tagIn = s.tagIn ∧
    t.adBytes = s.adBytes ∧ t.inBytes = s.inBytes ∧
    t.written.din = s.written.din ∧ t.written.adLenBits = s.written.adLenBits ∧
    t.written.msgLenBits = s.written.msgLenBits ∧ t.written.tagIn = s.written.tagIn ∧
    (i ∈ [.init, .absorb, .final] → t.dout = s.dout ∧ t.written.dout = s.written.dout) ∧
    (i ≠ .final → t.tag = s.tag ∧ t.written.tag = s.written.tag) ∧
    (i ≠ .init → t.keyLen = s.keyLen ∧ t.key = s.key ∧ t.nonceLen = s.nonceLen ∧ t.nonce = s.nonce)

/-- What a macro-command leaves alone when it raises no ContractViolation: the input buffers, every port but the key
ports (and `TAG` for ENCRYPT and MAC), and every byte of `OUT` outside `OUT[0..INBYTES]`; MAC, and a command that ends in
InvalidSize, leave all of `OUT`, and InvalidSize leaves `S` too. -/
def Obligations.MacroFrame : Prop :=
  ∀ (i : Instr) (s t : State), i ∈ [.encrypt, .decrypt, .mac, .stream] → exec i s = .next t → t.phase ≠ .faulted →
    (∀ a, t.ad.read a = s.ad.read a ∧ t.inp.read a = s.inp.read a) ∧
    (∀ a, blockAddr 0 + s.inBytes.toNat ≤ a → t.out.read a = s.out.read a) ∧
    (i = .mac ∨ t.err = .invalidSize → ∀ a, t.out.read a = s.out.read a) ∧
    (t.err = .invalidSize → t.S = s.S) ∧
    t.overlap = s.overlap ∧ t.host = s.host ∧ t.draws = s.draws ∧
    t.din = s.din ∧ t.dout = s.dout ∧ t.adLenBits = s.adLenBits ∧ t.msgLenBits = s.msgLenBits ∧ t.tagIn = s.tagIn ∧
    t.adBytes = s.adBytes ∧ t.inBytes = s.inBytes ∧
    t.written.din = s.written.din ∧ t.written.dout = s.written.dout ∧ t.written.adLenBits = s.written.adLenBits ∧
    t.written.msgLenBits = s.written.msgLenBits ∧ t.written.tagIn = s.written.tagIn ∧
    (i ∈ [.decrypt, .stream] → t.tag = s.tag ∧ t.written.tag = s.written.tag)

/-- A load of a buffer changes only the stored bytes of that buffer, and they read back; a load past the address space
stops (the model's choice: log 28). That `OUT` stays as it was also while the host has placed it over the loaded buffer is
the model's choice (log 33). -/
def Obligations.HostLoads : Prop :=
  ∀ (s : State) (addr : BitVec 64) (x : List Byte) (rest : List HostAction),
    (s.host = .loadAd addr x :: rest → addr.toNat + x.length ≤ 2 ^ 64 →
      ∃ t, step s = .next t ∧ t = { s with ad := t.ad, host := rest } ∧
        t.ad.readBytes addr.toNat x.length = some x ∧
        ∀ a, a < addr.toNat ∨ addr.toNat + x.length ≤ a → t.ad.read a = s.ad.read a) ∧
    (s.host = .loadIn addr x :: rest → addr.toNat + x.length ≤ 2 ^ 64 →
      ∃ t, step s = .next t ∧ t = { s with inp := t.inp, host := rest } ∧
        t.inp.readBytes addr.toNat x.length = some x ∧
        ∀ a, a < addr.toNat ∨ addr.toNat + x.length ≤ a → t.inp.read a = s.inp.read a) ∧
    (s.host = .loadAd addr x :: rest ∨ s.host = .loadIn addr x :: rest → 2 ^ 64 < addr.toNat + x.length →
      step s = .fault .noSuchAddress)

/-- The assembler's lines load the ports their command reads: from reset, the actions of `INIT key, nonce` before the
`CMD` write leave the key ports ready, with the bytes of the line (whole-string port writes are the model's: log 16). -/
def Obligations.AssembledInitLoadsThePorts : Prop :=
  ∀ key nonce : List Byte, key.length = 32 → nonce.length = 16 →
    ∃ t, Sys2Proof.core.run 4 { State.reset with host := (AsmLine.init key nonce).expand } = .next t ∧
      t.KeyReady ∧ t.key = key ∧ t.nonce = nonce ∧ t.phase = .uninitialized ∧ t.host = [.command 0x10#8]

/-! ### Realisations and instances -/

/-- The head-index realisation computes what the logical register does: UPDATE on it, seen in logical order, is UPDATE. -/
def Obligations.HeadIndexRefines : Prop :=
  ∀ (p : Params) (x : Block) (h : HeadReg),
    (h.update p x).1.logical = (updateReg p x h.logical).1 ∧ (h.update p x).2 = (updateReg p x h.logical).2 ∧
    (h.update p x).1.head = h.head + 1#4

/-- Instances are independent: a step of one leaves every other as it was, steps of two different instances give the same
system in either order, and one that stops does so before and after another's step (the product is the model's form:
log 29). -/
def Obligations.InstancesIndependent : Prop :=
  ∀ (n : Nat) (sys t : System n) (j k : Fin n), j ≠ k → System.stepAt j sys = .next t →
    t[k] = sys[k] ∧
    (∀ f, System.stepAt k sys = .fault f → System.stepAt k t = .fault f) ∧
    (∀ r, System.stepAt k sys = .refused r → System.stepAt k t = .refused r) ∧
    (∀ u, System.stepAt k sys = .next u →
      System.stepAt k t = .next (u.set j t[j]) ∧ System.stepAt j u = .next (u.set j t[j]))

/-! ### Buffer bytes without a value, host reads and port writes -/

/-- A macro-command that would read a byte of `AD` or `IN` that nothing has written is refused (decision D22); that `AD`
comes first, and both after the ports, is the model's choice (log 11). -/
def Obligations.UnwrittenBufferBytesRefused : Prop :=
  ∀ (i : Instr) (s : State), i ∈ [.encrypt, .decrypt, .mac] → s.phase = .uninitialized → s.KeyReady →
    s.adBytes.toNat < 2 ^ 61 → s.inBytes.toNat < 2 ^ 61 → s.overlap = false →
    (i = .decrypt → s.written.tagIn = true) →
    ((∃ a, a < s.adBytes.toNat ∧ s.ad.read a = none) → exec i s = .refused (.unwrittenBuffer .ad)) ∧
    ((∀ a, a < s.adBytes.toNat → s.ad.read a ≠ none) → i ≠ .mac →
      (∃ a, a < s.inBytes.toNat ∧ s.inp.read a = none) → exec i s = .refused (.unwrittenBuffer .inp))

/-- A read action of the host has no effect: where the read has a value, a step leaves everything but the host's next
actions, and where it has none, the step is that stop (the form is the model's: log 9). -/
def Obligations.ReadsHaveNoEffect : Prop :=
  ∀ (s : State) (rest : List HostAction),
    (∀ r : HostReg, s.host = .read r :: rest →
      (∀ v, hostRead r s = .next v → step s = .next { s with host := rest }) ∧
      (∀ f, hostRead r s = .fault f → step s = .fault f) ∧
      (∀ f, hostRead r s = .refused f → step s = .refused f)) ∧
    (∀ a : BitVec 64, s.host = .readOut a :: rest →
      (∀ v, hostReadOut a s = .next v → step s = .next { s with host := rest }) ∧
      (∀ f, hostReadOut a s = .fault f → step s = .fault f) ∧
      (∀ f, hostReadOut a s = .refused f → step s = .refused f))

/-- Each operand port takes the value the host writes, holds a value from then on, and nothing else changes. The bytes of
`KEY` and `NONCE` under a new length are the model's choice (log 15), and so are whole strings, a written prefix of `DIN`,
and the refusal of other widths (log 16). -/
def Obligations.PortWritesTakeTheValue : Prop :=
  ∀ (s : State) (rest : List HostAction) (n : BitVec 16) (q : BitVec 64) (b : Block) (x : List Byte),
    (s.host = .write (.keyLen n) :: rest →
      step s = .next { s with host := rest, keyLen := n, key := s.key.take n.toNat }) ∧
    (s.host = .write (.key x) :: rest →
      (x.length = s.keyLen.toNat → step s = .next { s with host := rest, key := x }) ∧
      (x.length ≠ s.keyLen.toNat → step s = .refused (.portWidth .key))) ∧
    (s.host = .write (.nonceLen n) :: rest →
      step s = .next { s with host := rest, nonceLen := n, nonce := s.nonce.take n.toNat }) ∧
    (s.host = .write (.nonce x) :: rest →
      (x.length = s.nonceLen.toNat → step s = .next { s with host := rest, nonce := x }) ∧
      (x.length ≠ s.nonceLen.toNat → step s = .refused (.portWidth .nonce))) ∧
    (s.host = .write (.din x) :: rest →
      (x.length ≤ 16 → ∃ d : Block,
        (∀ j, j < 16 → byteOf d j = if j < x.length then x.getD j 0#8 else byteOf s.din j) ∧
        step s = .next { s with
          host := rest, din := d, written := { s.written with din := max s.written.din x.length } }) ∧
      (16 < x.length → step s = .refused (.portWidth .din))) ∧
    (s.host = .write (.adLenBits q) :: rest →
      step s = .next { s with host := rest, adLenBits := q, written := { s.written with adLenBits := true } }) ∧
    (s.host = .write (.msgLenBits q) :: rest →
      step s = .next { s with host := rest, msgLenBits := q, written := { s.written with msgLenBits := true } }) ∧
    (s.host = .write (.tagIn b) :: rest →
      step s = .next { s with host := rest, tagIn := b, written := { s.written with tagIn := true } }) ∧
    (s.host = .write (.adBytes q) :: rest → step s = .next { s with host := rest, adBytes := q }) ∧
    (s.host = .write (.inBytes q) :: rest → step s = .next { s with host := rest, inBytes := q })
end

