-- ==== Sys2Proof/Laws/BlockAlgebra.lean ====
section
/-! SUPPORT. The laws of the datapath: Blocks and their bytes, aligned TRUNCATE and TAIL, padding, pieces of a stream,
the comparator. -/

namespace Sys2Proof.Machine

/-! ### Blocks and bytes -/

theorem byteOf_getLsbD (b : Block) (i k : Nat) : (byteOf b i).getLsbD k = (decide (k < 8) && b.getLsbD (8 * i + k)) := by
  simp [byteOf, BitVec.getLsbD_extractLsb']

/-- Two Blocks with the same bytes are the same. -/
theorem Block.ext_bytes {a b : Block} (h : ∀ i < 16, byteOf a i = byteOf b i) : a = b := by
  apply BitVec.eq_of_getLsbD_eq
  intro k hk
  have h1 := congrArg (fun x => x.getLsbD (k % 8)) (h (k / 8) (by omega))
  simp only [byteOf_getLsbD, Nat.mod_lt k (by decide : 8 > 0), decide_true, Bool.true_and, Nat.div_add_mod] at h1
  exact h1

@[simp] theorem byteOf_xor (a b : Block) (i : Nat) : byteOf (a ^^^ b) i = byteOf a i ^^^ byteOf b i := by
  apply BitVec.eq_of_getLsbD_eq
  intro k hk
  simp only [byteOf_getLsbD, BitVec.getLsbD_xor, hk, decide_true, Bool.true_and]

@[simp] theorem byteOf_zero (i : Nat) : byteOf 0#128 i = 0#8 := by
  apply BitVec.eq_of_getLsbD_eq
  intro k hk
  simp [byteOf_getLsbD]

theorem byteOf_ge (b : Block) (i : Nat) (h : 16 ≤ i) : byteOf b i = 0#8 := by
  apply BitVec.eq_of_getLsbD_eq
  intro k hk
  simp only [byteOf_getLsbD, BitVec.getLsbD_zero, Bool.and_eq_false_imp]
  intro _
  exact BitVec.getLsbD_of_ge _ _ (by omega)

theorem byteOf_ofBytes (x : List Byte) (i : Nat) (hi : i < 16) : byteOf (ofBytes x) i = x.getD i 0#8 := by
  induction x generalizing i with
  | nil => simp [ofBytes]
  | cons b x ih =>
    apply BitVec.eq_of_getLsbD_eq
    intro k hk
    simp only [byteOf_getLsbD, hk, decide_true, Bool.true_and, ofBytes, BitVec.getLsbD_or, BitVec.getLsbD_setWidth,
      BitVec.getLsbD_shiftLeft]
    cases i with
    | zero =>
      have h1 : k < 128 := by omega
      simp [h1, hk]
    | succ i =>
      have h1 : 8 * (i + 1) + k < 128 := by omega
      have h2 : ¬ 8 * (i + 1) + k < 8 := by omega
      have h3 : 8 * (i + 1) + k - 8 = 8 * i + k := by omega
      have h4 : b.getLsbD (8 * (i + 1) + k) = false := BitVec.getLsbD_of_ge _ _ (by omega)
      have h5 := congrArg (fun x => x.getLsbD k) (ih i (by omega))
      simp only [byteOf_getLsbD, hk, decide_true, Bool.true_and] at h5
      simp [h1, h2, h3, h4, h5]

@[simp] theorem toBytes_length (b : Block) : (toBytes b).length = 16 := by simp [toBytes]

theorem toBytes_getElem? (b : Block) (i : Nat) (h : i < 16) : (toBytes b)[i]? = some (byteOf b i) := by
  simp [toBytes, h]

@[simp] theorem toBytes_getD (b : Block) (i : Nat) : (toBytes b)[i]?.getD 0#8 = byteOf b i := by
  by_cases h : i < 16
  · rw [toBytes_getElem? b i h, Option.getD_some]
  · rw [byteOf_ge b i (by omega), List.getElem?_eq_none (by simp; omega)]
    rfl

@[simp] theorem ofBytes_toBytes (b : Block) : ofBytes (toBytes b) = b :=
  Block.ext_bytes fun i hi => by simp [byteOf_ofBytes _ i hi]

/-- The bytes of a Block made of at most 16 bytes: those, then zeros. -/
theorem toBytes_ofBytes_le (x : List Byte) (h : x.length ≤ 16) :
    toBytes (ofBytes x) = x ++ List.replicate (16 - x.length) 0#8 := by
  apply List.ext_getElem?
  intro i
  by_cases hi : i < 16
  · rw [toBytes_getElem? _ _ hi, byteOf_ofBytes _ _ hi]
    by_cases hx : i < x.length
    · rw [List.getElem?_append_left hx, List.getD_eq_getElem?_getD, List.getElem?_eq_getElem hx]; rfl
    · rw [List.getElem?_append_right (by omega), List.getElem?_replicate, List.getD_eq_getElem?_getD,
        List.getElem?_eq_none (by omega), if_pos (by omega)]
      rfl
  · rw [List.getElem?_eq_none (by simp; omega), List.getElem?_eq_none (by simp; omega)]

theorem toBytes_ofBytes (x : List Byte) (h : x.length = 16) : toBytes (ofBytes x) = x := by
  simpa [h] using toBytes_ofBytes_le x (by omega)

theorem toBytes_injective {a b : Block} (h : toBytes a = toBytes b) : a = b := by
  rw [← ofBytes_toBytes a, h, ofBytes_toBytes]

/-- The Block XOR is the byte string XOR (40_blockalgebra.md R50). -/
theorem toBytes_xor (a b : Block) : xorBytes (toBytes a) (toBytes b) = some (toBytes (a ^^^ b)) := by
  simp only [xorBytes, toBytes_length, if_true, Option.some.injEq]
  apply List.ext_getElem?
  intro i
  by_cases hi : i < 16
  · simp [List.getElem?_zipWith, toBytes_getElem? _ _ hi]
  · rw [List.getElem?_eq_none (by simp; omega), List.getElem?_eq_none (by simp; omega)]

/-! ### Padding, aligned TRUNCATE and TAIL -/

theorem padTo_length (n : Nat) (x : List Byte) (hn : 0 < n) : (padTo n x).length % n = 0 := by
  unfold padTo
  split
  · assumption
  · have h1 := Nat.mod_lt x.length hn
    have h2 : x.length + (n - x.length % n) = n * (x.length / n) + n := by
      have := Nat.div_add_mod x.length n
      omega
    simp [h2]

theorem padTo_of_lt (x : List Byte) (h0 : 0 < x.length) (h : x.length ≤ 16) :
    padTo 16 x = x ++ List.replicate (16 - x.length) 0#8 := by
  unfold padTo
  split
  · have : x.length = 16 := by omega
    simp [this]
  · rw [Nat.mod_eq_of_lt (by omega)]

/-- Padding changes no byte of the Block. -/
@[simp] theorem ofBytes_padTo (x : List Byte) : ofBytes (padTo 16 x) = ofBytes x := by
  refine Block.ext_bytes fun i hi => ?_
  rw [byteOf_ofBytes _ _ hi, byteOf_ofBytes _ _ hi]
  unfold padTo
  split
  · rfl
  · by_cases hx : i < x.length
    · simp [List.getD_eq_getElem?_getD, List.getElem?_append_left hx]
    · simp only [List.getD_eq_getElem?_getD]
      rw [List.getElem?_append_right (by omega), List.getElem?_eq_none (by omega : x.length ≤ i), List.getElem?_replicate]
      split <;> rfl

theorem truncateBits_aligned (x : List Byte) (n : Nat) : truncateBits x (8 * n) = x.take n := by
  have h1 : (8 * n + 7) / 8 = n := by omega
  have h2 : 8 * n % 8 = 0 := by omega
  simp [truncateBits, h1, h2]

/-- An aligned TAIL is the rest of the string. -/
theorem tailBits_aligned (x : List Byte) (n : Nat) (h : n ≤ x.length) : tailBits x (8 * (x.length - n)) = x.drop n := by
  have h1 : (8 * (x.length - n) + 7) / 8 = x.length - n := by omega
  have h2 : 8 * x.length - 8 * (x.length - n) = 8 * n := by omega
  have h3 : 8 * n / 8 = n := by omega
  have h4 : 8 * n % 8 = 0 := by omega
  simp only [tailBits, h1, h2, h3, h4]
  apply List.ext_getElem?
  intro i
  by_cases hi : i < x.length - n
  · have : n + i < x.length := by omega
    simp [hi, tailByte, List.getD_eq_getElem?_getD, List.getElem?_eq_getElem this]
  · rw [List.getElem?_eq_none (by simp; omega), List.getElem?_eq_none (by simp; omega)]

theorem tailBits_toBytes (b : Block) (n : Nat) (h : n ≤ 16) : tailBits (toBytes b) (128 - 8 * n) = (toBytes b).drop n := by
  rw [← tailBits_aligned _ n (by simpa using h), toBytes_length]
  congr 1
  omega

/-! ### Pieces of a stream -/

theorem blockCount_zero : blockCount 0 = 0 := rfl

/-- A stream that has a byte has a first piece, and the Blocks of the rest after it. -/
theorem blocksOf_cons (x : List Byte) (h : x ≠ []) : blocksOf x = ofBytes (x.take 16) :: blocksOf (x.drop 16) := by
  have hl : 0 < x.length := List.length_pos_of_ne_nil h
  have h1 : blockCount x.length = blockCount (x.drop 16).length + 1 := by
    simp only [blockCount, List.length_drop]
    omega
  simp [blocksOf, h1, pieces]

@[simp] theorem blocksOf_nil : blocksOf [] = [] := rfl

theorem blocksOf_length (x : List Byte) : (blocksOf x).length = blockCount x.length := by
  have key : ∀ k (y : List Byte), (pieces k y).length = k := by
    intro k
    induction k with
    | zero => intro y; rfl
    | succ k ih => intro y; simp [pieces, ih]
  simp [blocksOf, key]

theorem bytesOf_length (bs : List Block) : (bs.flatMap toBytes).length = 16 * bs.length := by
  induction bs with
  | nil => rfl
  | cons b bs ih => simp [ih]; omega

/-! ### The comparator -/

theorem ctEqLoop_eq (a b : List Byte) (h : a.length = b.length) (acc : Byte × Nat) :
    ((ctEqLoop a b acc).1 = 0#8 ↔ acc.1 = 0#8 ∧ a = b) ∧ (ctEqLoop a b acc).2 = acc.2 + 2 * a.length := by
  induction a generalizing b acc with
  | nil =>
    cases b with
    | nil => simp [ctEqLoop]
    | cons y b => simp at h
  | cons x a ih =>
    cases b with
    | nil => simp at h
    | cons y b =>
      obtain ⟨h1, h2⟩ := ih b (by simpa using h) (acc.1 ||| (x ^^^ y), acc.2 + 2)
      have hor : ∀ u v : Byte, u ||| v = 0#8 ↔ u = 0#8 ∧ v = 0#8 := by
        intro u v
        exact BitVec.or_eq_zero_iff
      have hxor : x ^^^ y = 0#8 ↔ x = y := BitVec.xor_eq_zero_iff
      have hstep : ctEqLoop (x :: a) (y :: b) acc = ctEqLoop a b (acc.1 ||| (x ^^^ y), acc.2 + 2) := rfl
      refine ⟨?_, ?_⟩
      · rw [hstep, h1, hor, hxor, List.cons.injEq, and_assoc]
      · rw [hstep, h2, List.length_cons]
        omega

/-- The comparator's value is equality (40_blockalgebra.md R56). -/
theorem ctEq_equal (a b : List Byte) : (ctEq a b).equal = true ↔ a = b := by
  unfold ctEq
  split
  · next h => exact ⟨fun h' => by simp at h', fun h' => absurd (congrArg List.length h') h⟩
  · next h =>
    have := (ctEqLoop_eq a b (not_not.1 h) (0#8, 0)).1
    simpa using this

end Sys2Proof.Machine
end

