-- ==== Sys2Proof/Laws/Cipher.lean ====
section
/-! SUPPORT. The CipherState unit: the slots after ROL and UPDATE, that DEC and DECP undo ENC, and how many UPDATEs each
body performs. -/

namespace Sys2Proof.Machine

theorem rol_getElem (S : StateReg) (i : Nat) (h : i < 16) : (rol S)[i] = S[(i + 1) % 16]'(Nat.mod_lt _ (by decide)) := by
  simp [rol]

/-- UPDATE in closed form (41_cipherstate.md R62). -/
theorem updateReg_fst (p : Params) (x : Block) (S : StateReg) : (updateReg p x S).1 = updateClosed p x S := by
  apply Vector.ext
  intro i hi
  simp only [updateReg, rol_getElem, updateClosed]
  interval_cases i <;> simp [BitVec.xor_assoc]

theorem updateReg_snd (p : Params) (x : Block) (S : StateReg) :
    (updateReg p x S).2 = p.aesl (S[0] ^^^ S[1]) ^^^ x := rfl

/-- One UPDATE of the unit, whole. -/
theorem Cipher.update_eq (p : Params) (x : Block) (c : Cipher) :
    c.update p x = ({ S := updateClosed p x c.S, updates := c.updates + 1 }, p.aesl (c.S[0] ^^^ c.S[1]) ^^^ x) := by
  simp [Cipher.update, updateReg_fst, updateReg_snd]

/-- `k` UPDATEs of the unit. -/
theorem Cipher.repeatUpdate_eq (p : Params) (x : Block) (k : Nat) (c : Cipher) :
    c.repeatUpdate p x k = { S := (updateClosed p x)^[k] c.S, updates := c.updates + k } := by
  induction k generalizing c with
  | zero => rfl
  | succ k ih => simp [Cipher.repeatUpdate, ih, Cipher.update_eq]; omega

theorem Cipher.diffuse_eq (p : Params) (x : Block) (c : Cipher) :
    c.diffuse p x = { S := (updateClosed p x)^[32] c.S, updates := c.updates + 32 } := by
  rw [Cipher.diffuse]
  exact Cipher.repeatUpdate_eq p x 32 c

theorem Cipher.absorb_eq (p : Params) (x : Block) (c : Cipher) :
    c.absorb p x = { S := updateClosed p x c.S, updates := c.updates + 1 } := by
  simp [Cipher.absorb, Cipher.update_eq]

/-- ENC in closed form (41_cipherstate.md R67). -/
theorem Cipher.enc_eq (p : Params) (m : Block) (c : Cipher) :
    c.enc p m = ({ S := updateClosed p m c.S, updates := c.updates + 1 }, keystream p c.S ^^^ m) := by
  simp only [Cipher.enc, Cipher.update_eq, keystream, Prod.mk.injEq, true_and]
  rw [BitVec.xor_assoc, BitVec.xor_comm m, ← BitVec.xor_assoc]

/-- DEC in closed form (41_cipherstate.md R68). -/
theorem Cipher.dec_eq (p : Params) (ct : Block) (c : Cipher) :
    c.dec p ct =
      ({ S := updateClosed p (keystream p c.S ^^^ ct) c.S, updates := c.updates + 1 }, keystream p c.S ^^^ ct) := by
  have h : p.aesl (c.S[0] ^^^ c.S[1]) ^^^ (ct ^^^ c.S[9]) = keystream p c.S ^^^ ct := by
    rw [keystream, BitVec.xor_comm ct, ← BitVec.xor_assoc]
  simp only [Cipher.dec, h, Cipher.update_eq]

/-- DEC undoes ENC and leaves the same unit. -/
theorem Cipher.dec_enc (p : Params) (m : Block) (c : Cipher) : c.dec p (c.enc p m).2 = ((c.enc p m).1, m) := by
  rw [Cipher.enc_eq, Cipher.dec_eq, ← BitVec.xor_assoc, BitVec.xor_self, BitVec.zero_xor]

/-- The synthetic full ciphertext Block of DECP: the true bytes, then the keystream (41_cipherstate.md R69). -/
theorem decPartial_block (p : Params) (cn : List Byte) (c : Cipher) (h : cn.length ≤ 16) :
    keystream p c.S ^^^ ofBytes (cn ++ tailBits (toBytes (xor3 (p.aesl (c.S[0] ^^^ c.S[1])) (ofBytes (padTo 16 cn)) c.S[9]))
      (128 - 8 * cn.length)) = partialPlain p cn c.S := by
  refine Block.ext_bytes fun i hi => ?_
  rw [tailBits_toBytes _ _ h, ofBytes_padTo, byteOf_xor, byteOf_ofBytes _ _ hi, partialPlain, byteOf_ofBytes _ _ hi]
  by_cases hn : i < cn.length
  · simp [List.getElem?_append_left hn, hn, keystream]
  · have h1 : cn.length + (i - cn.length) = i := by omega
    have h2 : byteOf (ofBytes cn) i = 0#8 := by
      rw [byteOf_ofBytes _ _ hi, List.getD_eq_getElem?_getD, List.getElem?_eq_none (by omega)]; rfl
    simp [List.getElem?_append_right (Nat.not_lt.1 hn), h1, hn, xor3, keystream, h2]

/-- DECP in closed form (41_cipherstate.md R69). -/
theorem Cipher.decPartial_eq (p : Params) (cn : List Byte) (c : Cipher) (h : cn.length ≤ 16) :
    c.decPartial p cn cn.length =
      ({ S := updateClosed p (partialPlain p cn c.S) c.S, updates := c.updates + 1 },
        (toBytes (partialPlain p cn c.S)).take cn.length) := by
  simp only [Cipher.decPartial, Cipher.dec_eq, decPartial_block p cn c h, truncateBits_aligned]

end Sys2Proof.Machine
end

