-- ==== Sys2Proof/Laws/Modes.lean ====
section
/-! SUPPORT. Lengths of what the modes compute, and the Blocks of a string of zeros (42_modes.md R73 to R77). -/

namespace Sys2Proof.Machine

@[simp] theorem encAll_length (p : Params) (ms : List Block) (c : Cipher) : (encAll p ms c).2.length = ms.length := by
  induction ms generalizing c with
  | nil => rfl
  | cons m ms ih => simp [encAll, ih]

@[simp] theorem decAll_length (p : Params) (cts : List Block) (c : Cipher) :
    (decAll p cts c).2.length = cts.length := by
  induction cts generalizing c with
  | nil => rfl
  | cons m ms ih => simp [decAll, ih]

@[simp] theorem pieces_length (k : Nat) (x : List Byte) : (pieces k x).length = k := by
  induction k generalizing x with
  | zero => rfl
  | succ k ih => simp [pieces, ih]

theorem decRest_length (p : Params) (rest : List Byte) (c : Cipher) (h : rest.length ≤ 16) :
    (decRest p rest c).2.length = rest.length := by
  unfold decRest
  split
  · next h0 => simp [h0]
  · rw [Cipher.decPartial_eq _ _ _ h]
    simp [h]

theorem encryptBytes_text_length (p : Params) (key nonce ad msg : List Byte) :
    (encryptBytes p key nonce ad msg).text.length = msg.length := by
  simp only [encryptBytes, truncateBits_aligned, bytesOf, List.length_take, bytesOf_length, encAll_length,
    blocksOf_length, blockCount]
  omega

theorem streamBytes_text_length (p : Params) (key nonce : List Byte) (len : Nat) :
    (streamBytes p key nonce len).text.length = len := by
  simp only [streamBytes, truncateBits_aligned, bytesOf, List.length_take, bytesOf_length, encAll_length,
    List.length_replicate, blockCount]
  omega

theorem decryptBytes_text_length (p : Params) (key nonce ad ct : List Byte) :
    (decryptBytes p key nonce ad ct).text.length = ct.length := by
  simp only [decryptBytes, bytesOf, List.length_append, bytesOf_length, decAll_length, List.length_map, pieces_length]
  rw [decRest_length _ _ _ (by simp; omega)]
  simp only [List.length_drop]
  omega

/-- Every piece of a string of zeros holds zeros. -/
theorem pieces_zeros (k n : Nat) : ∀ x ∈ pieces k (List.replicate n 0#8), ∀ y ∈ x, y = 0#8 := by
  induction k generalizing n with
  | zero => intro x h; simp [pieces] at h
  | succ k ih =>
    intro x h
    simp only [pieces, List.mem_cons, List.take_replicate, List.drop_replicate] at h
    rcases h with rfl | h
    · exact fun y hy => List.eq_of_mem_replicate hy
    · exact ih _ x h

theorem blocksOf_zeros (n : Nat) : blocksOf (List.replicate n 0#8) = List.replicate (blockCount n) 0#128 := by
  rw [List.eq_replicate_iff]
  refine ⟨by rw [blocksOf_length, List.length_replicate], fun b hb => ?_⟩
  obtain ⟨x, hx, rfl⟩ := List.mem_map.1 hb
  rw [ofBytes_padTo]
  refine Block.ext_bytes fun i hi => ?_
  rw [byteOf_ofBytes _ _ hi, byteOf_zero, List.getD_eq_getElem?_getD]
  by_cases h : i < x.length
  · rw [List.getElem?_eq_getElem h]
    exact pieces_zeros _ _ x hx _ (List.getElem_mem h)
  · rw [List.getElem?_eq_none (by omega)]
    rfl

end Sys2Proof.Machine
end

