-- ==== Sys2Proof/Laws/Memory.lean ====
section
/-! SUPPORT. The laws of the buffers: read after write, the canonical form is kept, ranges of bytes, and equal buffers are
equal data. -/

namespace Sys2Proof.Machine

@[simp] theorem Memory.read_nil (a : Nat) : Memory.read [] a = none := rfl

theorem Memory.read_write_same (m : Memory) (a : Nat) (b : Byte) : (m.write a b).read a = some b := by
  induction m with
  | nil => simp [Memory.write, Memory.read]
  | cons c m ih =>
    simp only [Memory.write]
    split
    · simp [Memory.read]
    · split
      · simp [Memory.read]
      · next h1 h2 => simp [Memory.read, Ne.symm h2, ih]

theorem Memory.read_write_other (m : Memory) (a b' : Nat) (b : Byte) (h : b' ≠ a) :
    (m.write a b).read b' = m.read b' := by
  induction m with
  | nil => simp [Memory.write, Memory.read, Ne.symm h]
  | cons c m ih =>
    simp only [Memory.write]
    split
    · simp [Memory.read, Ne.symm h]
    · split
      · next h1 h2 => subst h2; simp [Memory.read, Ne.symm h]
      · next h1 h2 => simp only [Memory.read, ih]

theorem Memory.mem_write {m : Memory} {a : Nat} {b : Byte} {c : Host.Cell} (h : c ∈ m.write a b) :
    c = (a, b) ∨ c ∈ m := by
  induction m with
  | nil => simpa [Memory.write] using h
  | cons d m ih =>
    simp only [Memory.write] at h
    split at h
    · simpa using h
    · split at h
      · rcases List.mem_cons.1 h with h | h
        · exact .inl h
        · exact .inr (List.mem_cons_of_mem _ h)
      · rcases List.mem_cons.1 h with h | h
        · exact .inr (h ▸ List.mem_cons_self)
        · exact (ih h).imp_right (List.mem_cons_of_mem _)

/-- One store keeps the canonical form. -/
theorem Memory.wf_write {m : Memory} (h : m.wf) {a : Nat} (ha : a < 2 ^ 64) (b : Byte) : (m.write a b).wf := by
  refine ⟨?_, fun c hc => ?_⟩
  · have h' := h.1
    clear h
    induction m with
    | nil => simp [Memory.write]
    | cons c m ih =>
      rw [List.pairwise_cons] at h'
      simp only [Memory.write]
      split
      · next h1 =>
        refine List.pairwise_cons.2 ⟨fun d hd => ?_, List.pairwise_cons.2 h'⟩
        rcases List.mem_cons.1 hd with rfl | hd
        · exact h1
        · exact lt_trans h1 (h'.1 d hd)
      · split
        · next h1 h2 => exact List.pairwise_cons.2 ⟨fun d hd => h2 ▸ h'.1 d hd, h'.2⟩
        · next h1 h2 =>
          refine List.pairwise_cons.2 ⟨fun d hd => ?_, ih h'.2⟩
          rcases Memory.mem_write hd with rfl | hd
          · show c.1 < a
            omega
          · exact h'.1 d hd
  · rcases Memory.mem_write hc with rfl | hc
    · exact ha
    · exact h.2 c hc

/-- Storing a string keeps the canonical form. -/
theorem Memory.wf_writeBytes (x : List Byte) {m : Memory} (h : m.wf) {a : Nat} (ha : a + x.length ≤ 2 ^ 64) :
    (m.writeBytes a x).wf := by
  induction x generalizing m a with
  | nil => exact h
  | cons b x ih =>
    simp only [List.length_cons] at ha
    exact ih (Memory.wf_write h (by omega) b) (by omega)

/-- Reading after storing a string: its bytes inside the stored range, as before outside it. -/
theorem Memory.read_writeBytes (x : List Byte) (m : Memory) (a c : Nat) :
    (m.writeBytes a x).read c = if a ≤ c ∧ c < a + x.length then x[c - a]? else m.read c := by
  induction x generalizing m a with
  | nil => simp [Memory.writeBytes]
  | cons b x ih =>
    simp only [Memory.writeBytes, ih, List.length_cons]
    by_cases hc : c = a
    · subst hc
      simp [Memory.read_write_same]
    · by_cases h1 : a + 1 ≤ c ∧ c < a + 1 + x.length
      · have h2 : a ≤ c ∧ c < a + (x.length + 1) := by omega
        obtain ⟨k, hk⟩ : ∃ k, c - a = k + 1 := ⟨c - a - 1, by omega⟩
        have : c - (a + 1) = k := by omega
        simp [h1, h2, hk, this]
      · have h2 : ¬ (a ≤ c ∧ c < a + (x.length + 1)) := by omega
        simp only [h1, h2, if_false]
        exact Memory.read_write_other m a c b hc

theorem Memory.read_writeBytes_outside (x : List Byte) (m : Memory) (a c : Nat) (h : ¬ (a ≤ c ∧ c < a + x.length)) :
    (m.writeBytes a x).read c = m.read c := by
  rw [Memory.read_writeBytes, if_neg h]

/-- What `MemRead` gives: exactly the bytes at the addresses of its range. -/
theorem Memory.readBytes_eq_some (m : Memory) (a n : Nat) (x : List Byte) :
    m.readBytes a n = some x ↔ x.length = n ∧ ∀ i < n, m.read (a + i) = x[i]? := by
  induction n generalizing a x with
  | zero =>
    simp only [Memory.readBytes, Option.some.injEq, List.length_eq_zero_iff, Nat.not_lt_zero, false_implies,
      implies_true, and_true]
    exact eq_comm
  | succ n ih =>
    constructor
    · intro h
      simp only [Memory.readBytes] at h
      split at h
      · next b bs hb hbs =>
        obtain ⟨hl, hr⟩ := (ih _ _).1 hbs
        cases h
        refine ⟨by simp [hl], fun i hi => ?_⟩
        cases i with
        | zero => simpa using hb
        | succ i =>
          have := hr i (by omega)
          rw [show a + (i + 1) = a + 1 + i by omega]
          simpa using this
      · cases h
    · rintro ⟨hl, hr⟩
      cases x with
      | nil => simp at hl
      | cons b bs =>
        have h0 : m.read a = some b := by simpa using hr 0 (by omega)
        have h1 : m.readBytes (a + 1) n = some bs := by
          refine (ih _ _).2 ⟨by simpa using hl, fun i hi => ?_⟩
          have := hr (i + 1) (by omega)
          rw [show a + 1 + i = a + (i + 1) by omega]
          simpa using this
        simp [Memory.readBytes, h0, h1]

/-- `MemRead` gives a string exactly where every byte of its range was written. -/
theorem Memory.readBytes_isSome (m : Memory) (a n : Nat) :
    (m.readBytes a n).isSome ↔ ∀ i < n, (m.read (a + i)).isSome := by
  induction n generalizing a with
  | zero => simp [Memory.readBytes]
  | succ n ih =>
    have key : (m.readBytes a (n + 1)).isSome ↔ (m.read a).isSome ∧ (m.readBytes (a + 1) n).isSome := by
      simp only [Memory.readBytes]
      cases m.read a <;> cases Memory.readBytes m (a + 1) n <;> simp
    rw [key, ih]
    constructor
    · rintro ⟨h0, h1⟩ i hi
      cases i with
      | zero => simpa using h0
      | succ i => rw [show a + (i + 1) = a + 1 + i by omega]; exact h1 i (by omega)
    · intro h
      refine ⟨by simpa using h 0 (by omega), fun i hi => ?_⟩
      rw [show a + 1 + i = a + (i + 1) by omega]
      exact h (i + 1) (by omega)

theorem Memory.readBytes_length {m : Memory} {a n : Nat} {x : List Byte} (h : m.readBytes a n = some x) :
    x.length = n := ((Memory.readBytes_eq_some m a n x).1 h).1

/-- A stored string is read back whole. -/
theorem Memory.readBytes_writeBytes (m : Memory) (a : Nat) (x : List Byte) :
    (m.writeBytes a x).readBytes a x.length = some x := by
  rw [Memory.readBytes_eq_some]
  refine ⟨rfl, fun i hi => ?_⟩
  rw [Memory.read_writeBytes, if_pos ⟨by omega, by omega⟩, Nat.add_sub_cancel_left]

theorem Memory.read_isSome_iff (m : Memory) (a : Nat) : (m.read a).isSome ↔ ∃ c ∈ m, c.1 = a := by
  induction m with
  | nil => simp
  | cons c m ih =>
    by_cases h : c.1 = a <;> simp [Memory.read, h, ih]

/-- Below every listed address nothing is read. -/
theorem Memory.read_eq_none_of_lt {m : Memory} {a : Nat} (h : ∀ c ∈ m, a < c.1) : m.read a = none := by
  by_contra hn
  obtain ⟨c, hc, rfl⟩ := (Memory.read_isSome_iff m a).1 (Option.isSome_iff_ne_none.2 hn)
  exact lt_irrefl _ (h c hc)

/-- Two sorted buffers that read alike are the same list. -/
theorem Memory.sorted_ext : ∀ (m m' : Memory), m.Pairwise (fun x y => x.1 < y.1) → m'.Pairwise (fun x y => x.1 < y.1) →
    (∀ a, m.read a = m'.read a) → m = m'
  | [], [], _, _, _ => rfl
  | [], c :: m', _, _, h => by simpa [Memory.read] using h c.1
  | c :: m, [], _, _, h => by simpa [Memory.read] using (h c.1).symm
  | c :: m, d :: m', hm, hm', h => by
    rw [List.pairwise_cons] at hm hm'
    have hcd : c.1 = d.1 := by
      rcases lt_trichotomy c.1 d.1 with hlt | heq | hgt
      · exfalso
        have h1 := h c.1
        rw [Memory.read_eq_none_of_lt (m := d :: m')
          (by intro x hx; rcases List.mem_cons.1 hx with rfl | hx
              · exact hlt
              · exact lt_trans hlt (hm'.1 x hx))] at h1
        simp [Memory.read] at h1
      · exact heq
      · exfalso
        have h1 := h d.1
        rw [Memory.read_eq_none_of_lt (m := c :: m)
          (by intro x hx; rcases List.mem_cons.1 hx with rfl | hx
              · exact hgt
              · exact lt_trans hgt (hm.1 x hx))] at h1
        simp [Memory.read] at h1
    have hb : c.2 = d.2 := by
      have h1 := h c.1
      simpa [Memory.read, hcd] using h1
    have htail : m = m' := by
      refine Memory.sorted_ext m m' hm.2 hm'.2 fun a => ?_
      by_cases ha : c.1 = a
      · rw [Memory.read_eq_none_of_lt (m := m) (by rw [← ha]; exact hm.1),
          Memory.read_eq_none_of_lt (m := m') (by rw [← ha, hcd]; exact hm'.1)]
      · have h1 := h a
        simpa [Memory.read, ha, ← hcd] using h1
    rw [Prod.ext hcd hb, htail]

/-- Lost meaning keeps the addresses that are listed, and so the canonical form. -/
theorem anyBytes_wf {m : Memory} (h : m.wf) (draw : Nat) : (anyBytes draw m).wf := by
  refine ⟨?_, fun c hc => ?_⟩
  · exact List.pairwise_map.2 (h.1.imp fun hxy => hxy)
  · obtain ⟨d, hd, rfl⟩ := List.mem_map.1 hc
    exact h.2 d hd

theorem anyBytes_read_isSome (m : Memory) (draw a : Nat) : ((anyBytes draw m).read a).isSome = (m.read a).isSome := by
  induction m with
  | nil => rfl
  | cons c m ih =>
    have : anyBytes draw (c :: m) = (c.1, Config.freeByte draw c.1) :: anyBytes draw m := rfl
    by_cases h : c.1 = a <;> simp [this, Memory.read, h, ih]

end Sys2Proof.Machine
end

