-- ==== Sys2Proof/Laws/State.lean ====
section
/-! SUPPORT. What each update of the state leaves in each field: one lemma per field per update, so that no later proof
unfolds a record update. -/

namespace Sys2Proof.Machine

/-! ### complete -/

@[simp] theorem complete_S (i : Instr) (s : State) : (complete i s).S = s.S := rfl
@[simp] theorem complete_phase (i : Instr) (s : State) : (complete i s).phase = nextPhase i s := rfl
@[simp] theorem complete_err (i : Instr) (s : State) : (complete i s).err = .ok := rfl
@[simp] theorem complete_keyLen (i : Instr) (s : State) : (complete i s).keyLen = s.keyLen := rfl
@[simp] theorem complete_key (i : Instr) (s : State) : (complete i s).key = s.key := rfl
@[simp] theorem complete_nonceLen (i : Instr) (s : State) : (complete i s).nonceLen = s.nonceLen := rfl
@[simp] theorem complete_nonce (i : Instr) (s : State) : (complete i s).nonce = s.nonce := rfl
@[simp] theorem complete_din (i : Instr) (s : State) : (complete i s).din = s.din := rfl
@[simp] theorem complete_dout (i : Instr) (s : State) : (complete i s).dout = s.dout := rfl
@[simp] theorem complete_adLenBits (i : Instr) (s : State) : (complete i s).adLenBits = s.adLenBits := rfl
@[simp] theorem complete_msgLenBits (i : Instr) (s : State) : (complete i s).msgLenBits = s.msgLenBits := rfl
@[simp] theorem complete_tag (i : Instr) (s : State) : (complete i s).tag = s.tag := rfl
@[simp] theorem complete_tagIn (i : Instr) (s : State) : (complete i s).tagIn = s.tagIn := rfl
@[simp] theorem complete_adBytes (i : Instr) (s : State) : (complete i s).adBytes = s.adBytes := rfl
@[simp] theorem complete_inBytes (i : Instr) (s : State) : (complete i s).inBytes = s.inBytes := rfl
@[simp] theorem complete_written (i : Instr) (s : State) : (complete i s).written = s.written := rfl
@[simp] theorem complete_ad (i : Instr) (s : State) : (complete i s).ad = s.ad := rfl
@[simp] theorem complete_inp (i : Instr) (s : State) : (complete i s).inp = s.inp := rfl
@[simp] theorem complete_out (i : Instr) (s : State) : (complete i s).out = s.out := rfl
@[simp] theorem complete_outLen (i : Instr) (s : State) : (complete i s).outLen = s.outLen := rfl
@[simp] theorem complete_overlap (i : Instr) (s : State) : (complete i s).overlap = s.overlap := rfl
@[simp] theorem complete_host (i : Instr) (s : State) : (complete i s).host = s.host := rfl
@[simp] theorem complete_draws (i : Instr) (s : State) : (complete i s).draws = s.draws := rfl

/-! ### clearKeyPorts -/

@[simp] theorem clearKeyPorts_S (s : State) : (clearKeyPorts s).S = s.S := rfl
@[simp] theorem clearKeyPorts_phase (s : State) : (clearKeyPorts s).phase = s.phase := rfl
@[simp] theorem clearKeyPorts_err (s : State) : (clearKeyPorts s).err = s.err := rfl
@[simp] theorem clearKeyPorts_keyLen (s : State) : (clearKeyPorts s).keyLen = 0#16 := rfl
@[simp] theorem clearKeyPorts_key (s : State) : (clearKeyPorts s).key = [] := rfl
@[simp] theorem clearKeyPorts_nonceLen (s : State) : (clearKeyPorts s).nonceLen = 0#16 := rfl
@[simp] theorem clearKeyPorts_nonce (s : State) : (clearKeyPorts s).nonce = [] := rfl
@[simp] theorem clearKeyPorts_din (s : State) : (clearKeyPorts s).din = s.din := rfl
@[simp] theorem clearKeyPorts_dout (s : State) : (clearKeyPorts s).dout = s.dout := rfl
@[simp] theorem clearKeyPorts_adLenBits (s : State) : (clearKeyPorts s).adLenBits = s.adLenBits := rfl
@[simp] theorem clearKeyPorts_msgLenBits (s : State) : (clearKeyPorts s).msgLenBits = s.msgLenBits := rfl
@[simp] theorem clearKeyPorts_tag (s : State) : (clearKeyPorts s).tag = s.tag := rfl
@[simp] theorem clearKeyPorts_tagIn (s : State) : (clearKeyPorts s).tagIn = s.tagIn := rfl
@[simp] theorem clearKeyPorts_adBytes (s : State) : (clearKeyPorts s).adBytes = s.adBytes := rfl
@[simp] theorem clearKeyPorts_inBytes (s : State) : (clearKeyPorts s).inBytes = s.inBytes := rfl
@[simp] theorem clearKeyPorts_written (s : State) : (clearKeyPorts s).written = s.written := rfl
@[simp] theorem clearKeyPorts_ad (s : State) : (clearKeyPorts s).ad = s.ad := rfl
@[simp] theorem clearKeyPorts_inp (s : State) : (clearKeyPorts s).inp = s.inp := rfl
@[simp] theorem clearKeyPorts_out (s : State) : (clearKeyPorts s).out = s.out := rfl
@[simp] theorem clearKeyPorts_outLen (s : State) : (clearKeyPorts s).outLen = s.outLen := rfl
@[simp] theorem clearKeyPorts_overlap (s : State) : (clearKeyPorts s).overlap = s.overlap := rfl
@[simp] theorem clearKeyPorts_host (s : State) : (clearKeyPorts s).host = s.host := rfl
@[simp] theorem clearKeyPorts_draws (s : State) : (clearKeyPorts s).draws = s.draws := rfl

/-! ### putDout -/

@[simp] theorem putDout_S (b : Block) (s : State) : (putDout b s).S = s.S := rfl
@[simp] theorem putDout_phase (b : Block) (s : State) : (putDout b s).phase = s.phase := rfl
@[simp] theorem putDout_err (b : Block) (s : State) : (putDout b s).err = s.err := rfl
@[simp] theorem putDout_keyLen (b : Block) (s : State) : (putDout b s).keyLen = s.keyLen := rfl
@[simp] theorem putDout_key (b : Block) (s : State) : (putDout b s).key = s.key := rfl
@[simp] theorem putDout_nonceLen (b : Block) (s : State) : (putDout b s).nonceLen = s.nonceLen := rfl
@[simp] theorem putDout_nonce (b : Block) (s : State) : (putDout b s).nonce = s.nonce := rfl
@[simp] theorem putDout_din (b : Block) (s : State) : (putDout b s).din = s.din := rfl
@[simp] theorem putDout_dout (b : Block) (s : State) : (putDout b s).dout = b := rfl
@[simp] theorem putDout_adLenBits (b : Block) (s : State) : (putDout b s).adLenBits = s.adLenBits := rfl
@[simp] theorem putDout_msgLenBits (b : Block) (s : State) : (putDout b s).msgLenBits = s.msgLenBits := rfl
@[simp] theorem putDout_tag (b : Block) (s : State) : (putDout b s).tag = s.tag := rfl
@[simp] theorem putDout_tagIn (b : Block) (s : State) : (putDout b s).tagIn = s.tagIn := rfl
@[simp] theorem putDout_adBytes (b : Block) (s : State) : (putDout b s).adBytes = s.adBytes := rfl
@[simp] theorem putDout_inBytes (b : Block) (s : State) : (putDout b s).inBytes = s.inBytes := rfl
@[simp] theorem putDout_written (b : Block) (s : State) : (putDout b s).written = { s.written with dout := true } := rfl
@[simp] theorem putDout_ad (b : Block) (s : State) : (putDout b s).ad = s.ad := rfl
@[simp] theorem putDout_inp (b : Block) (s : State) : (putDout b s).inp = s.inp := rfl
@[simp] theorem putDout_out (b : Block) (s : State) : (putDout b s).out = s.out := rfl
@[simp] theorem putDout_outLen (b : Block) (s : State) : (putDout b s).outLen = s.outLen := rfl
@[simp] theorem putDout_overlap (b : Block) (s : State) : (putDout b s).overlap = s.overlap := rfl
@[simp] theorem putDout_host (b : Block) (s : State) : (putDout b s).host = s.host := rfl
@[simp] theorem putDout_draws (b : Block) (s : State) : (putDout b s).draws = s.draws := rfl

/-! ### putTag -/

@[simp] theorem putTag_S (b : Block) (s : State) : (putTag b s).S = s.S := rfl
@[simp] theorem putTag_phase (b : Block) (s : State) : (putTag b s).phase = s.phase := rfl
@[simp] theorem putTag_err (b : Block) (s : State) : (putTag b s).err = s.err := rfl
@[simp] theorem putTag_keyLen (b : Block) (s : State) : (putTag b s).keyLen = s.keyLen := rfl
@[simp] theorem putTag_key (b : Block) (s : State) : (putTag b s).key = s.key := rfl
@[simp] theorem putTag_nonceLen (b : Block) (s : State) : (putTag b s).nonceLen = s.nonceLen := rfl
@[simp] theorem putTag_nonce (b : Block) (s : State) : (putTag b s).nonce = s.nonce := rfl
@[simp] theorem putTag_din (b : Block) (s : State) : (putTag b s).din = s.din := rfl
@[simp] theorem putTag_dout (b : Block) (s : State) : (putTag b s).dout = s.dout := rfl
@[simp] theorem putTag_adLenBits (b : Block) (s : State) : (putTag b s).adLenBits = s.adLenBits := rfl
@[simp] theorem putTag_msgLenBits (b : Block) (s : State) : (putTag b s).msgLenBits = s.msgLenBits := rfl
@[simp] theorem putTag_tag (b : Block) (s : State) : (putTag b s).tag = b := rfl
@[simp] theorem putTag_tagIn (b : Block) (s : State) : (putTag b s).tagIn = s.tagIn := rfl
@[simp] theorem putTag_adBytes (b : Block) (s : State) : (putTag b s).adBytes = s.adBytes := rfl
@[simp] theorem putTag_inBytes (b : Block) (s : State) : (putTag b s).inBytes = s.inBytes := rfl
@[simp] theorem putTag_written (b : Block) (s : State) : (putTag b s).written = { s.written with tag := true } := rfl
@[simp] theorem putTag_ad (b : Block) (s : State) : (putTag b s).ad = s.ad := rfl
@[simp] theorem putTag_inp (b : Block) (s : State) : (putTag b s).inp = s.inp := rfl
@[simp] theorem putTag_out (b : Block) (s : State) : (putTag b s).out = s.out := rfl
@[simp] theorem putTag_outLen (b : Block) (s : State) : (putTag b s).outLen = s.outLen := rfl
@[simp] theorem putTag_overlap (b : Block) (s : State) : (putTag b s).overlap = s.overlap := rfl
@[simp] theorem putTag_host (b : Block) (s : State) : (putTag b s).host = s.host := rfl
@[simp] theorem putTag_draws (b : Block) (s : State) : (putTag b s).draws = s.draws := rfl

/-! ### putOut -/

@[simp] theorem putOut_S (x : List Byte) (s : State) : (putOut x s).S = s.S := rfl
@[simp] theorem putOut_phase (x : List Byte) (s : State) : (putOut x s).phase = s.phase := rfl
@[simp] theorem putOut_err (x : List Byte) (s : State) : (putOut x s).err = s.err := rfl
@[simp] theorem putOut_keyLen (x : List Byte) (s : State) : (putOut x s).keyLen = s.keyLen := rfl
@[simp] theorem putOut_key (x : List Byte) (s : State) : (putOut x s).key = s.key := rfl
@[simp] theorem putOut_nonceLen (x : List Byte) (s : State) : (putOut x s).nonceLen = s.nonceLen := rfl
@[simp] theorem putOut_nonce (x : List Byte) (s : State) : (putOut x s).nonce = s.nonce := rfl
@[simp] theorem putOut_din (x : List Byte) (s : State) : (putOut x s).din = s.din := rfl
@[simp] theorem putOut_dout (x : List Byte) (s : State) : (putOut x s).dout = s.dout := rfl
@[simp] theorem putOut_adLenBits (x : List Byte) (s : State) : (putOut x s).adLenBits = s.adLenBits := rfl
@[simp] theorem putOut_msgLenBits (x : List Byte) (s : State) : (putOut x s).msgLenBits = s.msgLenBits := rfl
@[simp] theorem putOut_tag (x : List Byte) (s : State) : (putOut x s).tag = s.tag := rfl
@[simp] theorem putOut_tagIn (x : List Byte) (s : State) : (putOut x s).tagIn = s.tagIn := rfl
@[simp] theorem putOut_adBytes (x : List Byte) (s : State) : (putOut x s).adBytes = s.adBytes := rfl
@[simp] theorem putOut_inBytes (x : List Byte) (s : State) : (putOut x s).inBytes = s.inBytes := rfl
@[simp] theorem putOut_written (x : List Byte) (s : State) : (putOut x s).written = s.written := rfl
@[simp] theorem putOut_ad (x : List Byte) (s : State) : (putOut x s).ad = s.ad := rfl
@[simp] theorem putOut_inp (x : List Byte) (s : State) : (putOut x s).inp = s.inp := rfl
@[simp] theorem putOut_out (x : List Byte) (s : State) : (putOut x s).out = s.out.writeBytes 0 x := rfl
@[simp] theorem putOut_outLen (x : List Byte) (s : State) : (putOut x s).outLen = x.length := rfl
@[simp] theorem putOut_overlap (x : List Byte) (s : State) : (putOut x s).overlap = s.overlap := rfl
@[simp] theorem putOut_host (x : List Byte) (s : State) : (putOut x s).host = s.host := rfl
@[simp] theorem putOut_draws (x : List Byte) (s : State) : (putOut x s).draws = s.draws := rfl

/-! ### invalidSize -/

@[simp] theorem invalidSize_S (s : State) : (takeException .invalidSize s).S = s.S := rfl
@[simp] theorem invalidSize_phase (s : State) : (takeException .invalidSize s).phase = s.phase := rfl
@[simp] theorem invalidSize_err (s : State) : (takeException .invalidSize s).err = .invalidSize := rfl
@[simp] theorem invalidSize_keyLen (s : State) : (takeException .invalidSize s).keyLen = s.keyLen := rfl
@[simp] theorem invalidSize_key (s : State) : (takeException .invalidSize s).key = s.key := rfl
@[simp] theorem invalidSize_nonceLen (s : State) : (takeException .invalidSize s).nonceLen = s.nonceLen := rfl
@[simp] theorem invalidSize_nonce (s : State) : (takeException .invalidSize s).nonce = s.nonce := rfl
@[simp] theorem invalidSize_din (s : State) : (takeException .invalidSize s).din = s.din := rfl
@[simp] theorem invalidSize_dout (s : State) : (takeException .invalidSize s).dout = s.dout := rfl
@[simp] theorem invalidSize_adLenBits (s : State) : (takeException .invalidSize s).adLenBits = s.adLenBits := rfl
@[simp] theorem invalidSize_msgLenBits (s : State) : (takeException .invalidSize s).msgLenBits = s.msgLenBits := rfl
@[simp] theorem invalidSize_tag (s : State) : (takeException .invalidSize s).tag = s.tag := rfl
@[simp] theorem invalidSize_tagIn (s : State) : (takeException .invalidSize s).tagIn = s.tagIn := rfl
@[simp] theorem invalidSize_adBytes (s : State) : (takeException .invalidSize s).adBytes = s.adBytes := rfl
@[simp] theorem invalidSize_inBytes (s : State) : (takeException .invalidSize s).inBytes = s.inBytes := rfl
@[simp] theorem invalidSize_written (s : State) : (takeException .invalidSize s).written = s.written := rfl
@[simp] theorem invalidSize_ad (s : State) : (takeException .invalidSize s).ad = s.ad := rfl
@[simp] theorem invalidSize_inp (s : State) : (takeException .invalidSize s).inp = s.inp := rfl
@[simp] theorem invalidSize_out (s : State) : (takeException .invalidSize s).out = s.out := rfl
@[simp] theorem invalidSize_outLen (s : State) : (takeException .invalidSize s).outLen = s.outLen := rfl
@[simp] theorem invalidSize_overlap (s : State) : (takeException .invalidSize s).overlap = s.overlap := rfl
@[simp] theorem invalidSize_host (s : State) : (takeException .invalidSize s).host = s.host := rfl
@[simp] theorem invalidSize_draws (s : State) : (takeException .invalidSize s).draws = s.draws := rfl

/-! ### authFail -/

@[simp] theorem authFail_S (s : State) : (takeException .authFail s).S = s.S := rfl
@[simp] theorem authFail_phase (s : State) : (takeException .authFail s).phase = .finalized := rfl
@[simp] theorem authFail_err (s : State) : (takeException .authFail s).err = .authFail := rfl
@[simp] theorem authFail_keyLen (s : State) : (takeException .authFail s).keyLen = s.keyLen := rfl
@[simp] theorem authFail_key (s : State) : (takeException .authFail s).key = s.key := rfl
@[simp] theorem authFail_nonceLen (s : State) : (takeException .authFail s).nonceLen = s.nonceLen := rfl
@[simp] theorem authFail_nonce (s : State) : (takeException .authFail s).nonce = s.nonce := rfl
@[simp] theorem authFail_din (s : State) : (takeException .authFail s).din = s.din := rfl
@[simp] theorem authFail_dout (s : State) : (takeException .authFail s).dout = s.dout := rfl
@[simp] theorem authFail_adLenBits (s : State) : (takeException .authFail s).adLenBits = s.adLenBits := rfl
@[simp] theorem authFail_msgLenBits (s : State) : (takeException .authFail s).msgLenBits = s.msgLenBits := rfl
@[simp] theorem authFail_tag (s : State) : (takeException .authFail s).tag = s.tag := rfl
@[simp] theorem authFail_tagIn (s : State) : (takeException .authFail s).tagIn = s.tagIn := rfl
@[simp] theorem authFail_adBytes (s : State) : (takeException .authFail s).adBytes = s.adBytes := rfl
@[simp] theorem authFail_inBytes (s : State) : (takeException .authFail s).inBytes = s.inBytes := rfl
@[simp] theorem authFail_written (s : State) : (takeException .authFail s).written = s.written := rfl
@[simp] theorem authFail_ad (s : State) : (takeException .authFail s).ad = s.ad := rfl
@[simp] theorem authFail_inp (s : State) : (takeException .authFail s).inp = s.inp := rfl
@[simp] theorem authFail_out (s : State) : (takeException .authFail s).out = s.out.writeBytes 0 (List.replicate s.inBytes.toNat 0#8) := rfl
@[simp] theorem authFail_outLen (s : State) : (takeException .authFail s).outLen = s.outLen := rfl
@[simp] theorem authFail_overlap (s : State) : (takeException .authFail s).overlap = s.overlap := rfl
@[simp] theorem authFail_host (s : State) : (takeException .authFail s).host = s.host := rfl
@[simp] theorem authFail_draws (s : State) : (takeException .authFail s).draws = s.draws := rfl

/-! ### contract -/

@[simp] theorem contract_S (s : State) : (takeException .contract s).S = Vector.ofFn fun i : Fin 16 => Config.freeBlock s.draws i.val := rfl
@[simp] theorem contract_phase (s : State) : (takeException .contract s).phase = .faulted := rfl
@[simp] theorem contract_err (s : State) : (takeException .contract s).err = .contract := rfl
@[simp] theorem contract_keyLen (s : State) : (takeException .contract s).keyLen = s.keyLen := rfl
@[simp] theorem contract_key (s : State) : (takeException .contract s).key = s.key := rfl
@[simp] theorem contract_nonceLen (s : State) : (takeException .contract s).nonceLen = s.nonceLen := rfl
@[simp] theorem contract_nonce (s : State) : (takeException .contract s).nonce = s.nonce := rfl
@[simp] theorem contract_din (s : State) : (takeException .contract s).din = s.din := rfl
@[simp] theorem contract_dout (s : State) : (takeException .contract s).dout = Config.freeBlock s.draws 16 := rfl
@[simp] theorem contract_adLenBits (s : State) : (takeException .contract s).adLenBits = s.adLenBits := rfl
@[simp] theorem contract_msgLenBits (s : State) : (takeException .contract s).msgLenBits = s.msgLenBits := rfl
@[simp] theorem contract_tag (s : State) : (takeException .contract s).tag = Config.freeBlock s.draws 17 := rfl
@[simp] theorem contract_tagIn (s : State) : (takeException .contract s).tagIn = s.tagIn := rfl
@[simp] theorem contract_adBytes (s : State) : (takeException .contract s).adBytes = s.adBytes := rfl
@[simp] theorem contract_inBytes (s : State) : (takeException .contract s).inBytes = s.inBytes := rfl
@[simp] theorem contract_written (s : State) : (takeException .contract s).written = { s.written with dout := false, tag := false } := rfl
@[simp] theorem contract_ad (s : State) : (takeException .contract s).ad = s.ad := rfl
@[simp] theorem contract_inp (s : State) : (takeException .contract s).inp = s.inp := rfl
@[simp] theorem contract_out (s : State) : (takeException .contract s).out = anyBytes s.draws s.out := rfl
@[simp] theorem contract_outLen (s : State) : (takeException .contract s).outLen = 0 := rfl
@[simp] theorem contract_overlap (s : State) : (takeException .contract s).overlap = s.overlap := rfl
@[simp] theorem contract_host (s : State) : (takeException .contract s).host = s.host := rfl
@[simp] theorem contract_draws (s : State) : (takeException .contract s).draws = s.draws + 1 := rfl

/-! ### resetEvent -/

@[simp] theorem resetEvent_S (s : State) : (resetEvent s).S = State.reset.S := rfl
@[simp] theorem resetEvent_phase (s : State) : (resetEvent s).phase = State.reset.phase := rfl
@[simp] theorem resetEvent_err (s : State) : (resetEvent s).err = State.reset.err := rfl
@[simp] theorem resetEvent_keyLen (s : State) : (resetEvent s).keyLen = State.reset.keyLen := rfl
@[simp] theorem resetEvent_key (s : State) : (resetEvent s).key = State.reset.key := rfl
@[simp] theorem resetEvent_nonceLen (s : State) : (resetEvent s).nonceLen = State.reset.nonceLen := rfl
@[simp] theorem resetEvent_nonce (s : State) : (resetEvent s).nonce = State.reset.nonce := rfl
@[simp] theorem resetEvent_din (s : State) : (resetEvent s).din = State.reset.din := rfl
@[simp] theorem resetEvent_dout (s : State) : (resetEvent s).dout = State.reset.dout := rfl
@[simp] theorem resetEvent_adLenBits (s : State) : (resetEvent s).adLenBits = State.reset.adLenBits := rfl
@[simp] theorem resetEvent_msgLenBits (s : State) : (resetEvent s).msgLenBits = State.reset.msgLenBits := rfl
@[simp] theorem resetEvent_tag (s : State) : (resetEvent s).tag = State.reset.tag := rfl
@[simp] theorem resetEvent_tagIn (s : State) : (resetEvent s).tagIn = State.reset.tagIn := rfl
@[simp] theorem resetEvent_adBytes (s : State) : (resetEvent s).adBytes = State.reset.adBytes := rfl
@[simp] theorem resetEvent_inBytes (s : State) : (resetEvent s).inBytes = State.reset.inBytes := rfl
@[simp] theorem resetEvent_written (s : State) : (resetEvent s).written = State.reset.written := rfl
@[simp] theorem resetEvent_ad (s : State) : (resetEvent s).ad = s.ad := rfl
@[simp] theorem resetEvent_inp (s : State) : (resetEvent s).inp = s.inp := rfl
@[simp] theorem resetEvent_out (s : State) : (resetEvent s).out = s.out := rfl
@[simp] theorem resetEvent_outLen (s : State) : (resetEvent s).outLen = s.outLen := rfl
@[simp] theorem resetEvent_overlap (s : State) : (resetEvent s).overlap = s.overlap := rfl
@[simp] theorem resetEvent_host (s : State) : (resetEvent s).host = s.host := rfl
@[simp] theorem resetEvent_draws (s : State) : (resetEvent s).draws = s.draws := rfl

/-! ### withFetchWord -/

@[simp] theorem withFetchWord_S (s : State) (nbits w : Nat) : (s.withFetchWord nbits w).S = s.S := rfl
@[simp] theorem withFetchWord_phase (s : State) (nbits w : Nat) : (s.withFetchWord nbits w).phase = s.phase := rfl
@[simp] theorem withFetchWord_err (s : State) (nbits w : Nat) : (s.withFetchWord nbits w).err = s.err := rfl
@[simp] theorem withFetchWord_keyLen (s : State) (nbits w : Nat) : (s.withFetchWord nbits w).keyLen = s.keyLen := rfl
@[simp] theorem withFetchWord_key (s : State) (nbits w : Nat) : (s.withFetchWord nbits w).key = s.key := rfl
@[simp] theorem withFetchWord_nonceLen (s : State) (nbits w : Nat) : (s.withFetchWord nbits w).nonceLen = s.nonceLen := rfl
@[simp] theorem withFetchWord_nonce (s : State) (nbits w : Nat) : (s.withFetchWord nbits w).nonce = s.nonce := rfl
@[simp] theorem withFetchWord_din (s : State) (nbits w : Nat) : (s.withFetchWord nbits w).din = s.din := rfl
@[simp] theorem withFetchWord_dout (s : State) (nbits w : Nat) : (s.withFetchWord nbits w).dout = s.dout := rfl
@[simp] theorem withFetchWord_adLenBits (s : State) (nbits w : Nat) : (s.withFetchWord nbits w).adLenBits = s.adLenBits := rfl
@[simp] theorem withFetchWord_msgLenBits (s : State) (nbits w : Nat) : (s.withFetchWord nbits w).msgLenBits = s.msgLenBits := rfl
@[simp] theorem withFetchWord_tag (s : State) (nbits w : Nat) : (s.withFetchWord nbits w).tag = s.tag := rfl
@[simp] theorem withFetchWord_tagIn (s : State) (nbits w : Nat) : (s.withFetchWord nbits w).tagIn = s.tagIn := rfl
@[simp] theorem withFetchWord_adBytes (s : State) (nbits w : Nat) : (s.withFetchWord nbits w).adBytes = s.adBytes := rfl
@[simp] theorem withFetchWord_inBytes (s : State) (nbits w : Nat) : (s.withFetchWord nbits w).inBytes = s.inBytes := rfl
@[simp] theorem withFetchWord_written (s : State) (nbits w : Nat) : (s.withFetchWord nbits w).written = s.written := rfl
@[simp] theorem withFetchWord_ad (s : State) (nbits w : Nat) : (s.withFetchWord nbits w).ad = s.ad := rfl
@[simp] theorem withFetchWord_inp (s : State) (nbits w : Nat) : (s.withFetchWord nbits w).inp = s.inp := rfl
@[simp] theorem withFetchWord_out (s : State) (nbits w : Nat) : (s.withFetchWord nbits w).out = s.out := rfl
@[simp] theorem withFetchWord_outLen (s : State) (nbits w : Nat) : (s.withFetchWord nbits w).outLen = s.outLen := rfl
@[simp] theorem withFetchWord_overlap (s : State) (nbits w : Nat) : (s.withFetchWord nbits w).overlap = s.overlap := rfl
@[simp] theorem withFetchWord_host (s : State) (nbits w : Nat) : (s.withFetchWord nbits w).host = .command (tableWord nbits w) :: s.host := rfl
@[simp] theorem withFetchWord_draws (s : State) (nbits w : Nat) : (s.withFetchWord nbits w).draws = s.draws := rfl

end Sys2Proof.Machine
end

