-- ==== Sys2Proof/Laws/Ops.lean ====
section
/-! SUPPORT. What each check before a command can answer, said once: the checks either go on, or end in the one way named
here. -/

namespace Sys2Proof.Machine

theorem checkPhase_pos {i : Instr} {s : State} (h : s.phase.allows i = true) (k : Result) : checkPhase i s k = k := by
  simp [checkPhase, h]

theorem checkPhase_neg {i : Instr} {s : State} (h : s.phase.allows i = false) (k : Result) :
    checkPhase i s k = .next (takeException .contract s) := by simp [checkPhase, h]

theorem checkSizes_pos {s : State} (h : s.keyLen = 32#16) (h' : s.nonceLen = 16#16) (k : Result) :
    checkSizes s k = k := by simp [checkSizes, h, h']

theorem checkSizes_neg {s : State} (h : ¬ (s.keyLen = 32#16 ∧ s.nonceLen = 16#16)) (k : Result) :
    checkSizes s k = .next (takeException .invalidSize s) := by simp [checkSizes, h]

theorem checkLength_pos {len : BitVec 64} (h : len.toNat < 2 ^ 61) (k : Result) : checkLength len k = k := by
  simp only [checkLength, h, if_true]

theorem checkLength_neg {len : BitVec 64} (h : 2 ^ 61 ≤ len.toNat) (k : Result) :
    checkLength len k = .refused .lengthLimit := by simp only [checkLength, Nat.not_lt.2 h, if_false]

theorem checkPlacement_pos {s : State} (h : s.overlap = false) (k : Result) : checkPlacement s k = k := by
  simp [checkPlacement, h]

theorem checkPlacement_neg {s : State} (h : s.overlap = true) (k : Result) :
    checkPlacement s k = .refused .bufferOverlap := by simp [checkPlacement, h]

@[simp] theorem withPort_some {α : Type} (r : HostReg) (x : α) (k : α → Result) : withPort r (some x) k = k x := rfl

@[simp] theorem withPort_none {α : Type} (r : HostReg) (k : α → Result) :
    withPort r none k = .refused (.unwrittenOperand r) := rfl

theorem withBuffer_some {b : Space} {m : Memory} {len : BitVec 64} {x : List Byte}
    (h : m.readBytes 0 len.toNat = some x) (k : List Byte → Result) : withBuffer b m len k = k x := by
  simp [withBuffer, h]

theorem withBuffer_none {b : Space} {m : Memory} {len : BitVec 64} (h : m.readBytes 0 len.toNat = none)
    (k : List Byte → Result) : withBuffer b m len k = .refused (.unwrittenBuffer b) := by simp [withBuffer, h]

theorem checkLaunch_pos {s : State} (ha : s.adBytes.toNat < 2 ^ 61) (hi : s.inBytes.toNat < 2 ^ 61)
    (ho : s.overlap = false) (k : Result) : checkLaunch s k = k := by
  rw [checkLaunch, checkLength_pos ha, checkLength_pos hi, checkPlacement_pos ho]

theorem checkLaunch_length {s : State} (h : 2 ^ 61 ≤ s.adBytes.toNat ∨ 2 ^ 61 ≤ s.inBytes.toNat) (k : Result) :
    checkLaunch s k = .refused .lengthLimit := by
  unfold checkLaunch
  by_cases ha : s.adBytes.toNat < 2 ^ 61
  · rw [checkLength_pos ha, checkLength_neg (h.resolve_left (Nat.not_le.2 ha))]
  · rw [checkLength_neg (Nat.not_lt.1 ha)]

theorem checkLaunch_overlap {s : State} (ha : s.adBytes.toNat < 2 ^ 61) (hi : s.inBytes.toNat < 2 ^ 61)
    (ho : s.overlap = true) (k : Result) : checkLaunch s k = .refused .bufferOverlap := by
  rw [checkLaunch, checkLength_pos ha, checkLength_pos hi, checkPlacement_neg ho]

/-- The phase check answers a next state in two ways only. -/
theorem checkPhase_next {i : Instr} {s t : State} {k : Result} (h : checkPhase i s k = .next t) :
    (s.phase.allows i = true ∧ k = .next t) ∨ (s.phase.allows i = false ∧ t = takeException .contract s) := by
  cases hp : s.phase.allows i
  · rw [checkPhase_neg hp] at h; exact .inr ⟨rfl, by cases h; rfl⟩
  · rw [checkPhase_pos hp] at h; exact .inl ⟨rfl, h⟩

/-- The size check answers a next state in two ways only. -/
theorem checkSizes_next {s t : State} {k : Result} (h : checkSizes s k = .next t) :
    (s.keyLen = 32#16 ∧ s.nonceLen = 16#16 ∧ k = .next t) ∨
    (¬ (s.keyLen = 32#16 ∧ s.nonceLen = 16#16) ∧ t = takeException .invalidSize s) := by
  by_cases hs : s.keyLen = 32#16 ∧ s.nonceLen = 16#16
  · rw [checkSizes_pos hs.1 hs.2] at h; exact .inl ⟨hs.1, hs.2, h⟩
  · rw [checkSizes_neg hs] at h; exact .inr ⟨hs, by cases h; rfl⟩

/-- The length check goes on only below the limit. -/
theorem checkLength_next {len : BitVec 64} {t : State} {k : Result} (h : checkLength len k = .next t) :
    len.toNat < 2 ^ 61 ∧ k = .next t := by
  by_cases hl : len.toNat < 2 ^ 61
  · exact ⟨hl, by rwa [checkLength_pos hl] at h⟩
  · rw [checkLength_neg (Nat.not_lt.1 hl)] at h; cases h

/-- The placement check goes on only without overlap. -/
theorem checkPlacement_next {s t : State} {k : Result} (h : checkPlacement s k = .next t) :
    s.overlap = false ∧ k = .next t := by
  cases ho : s.overlap
  · exact ⟨rfl, by rwa [checkPlacement_pos ho] at h⟩
  · rw [checkPlacement_neg ho] at h; cases h

/-- A port operand is handed on only where it holds a value. -/
theorem checkLaunch_next {s t : State} {k : Result} (h : checkLaunch s k = .next t) :
    s.adBytes.toNat < 2 ^ 61 ∧ s.inBytes.toNat < 2 ^ 61 ∧ s.overlap = false ∧ k = .next t := by
  obtain ⟨ha, h⟩ := checkLength_next h
  obtain ⟨hi, h⟩ := checkLength_next h
  obtain ⟨ho, h⟩ := checkPlacement_next h
  exact ⟨ha, hi, ho, h⟩

theorem withPort_next {α : Type} {r : HostReg} {v : Option α} {t : State} {k : α → Result}
    (h : withPort r v k = .next t) : ∃ x, v = some x ∧ k x = .next t := by
  cases v with
  | none => cases h
  | some x => exact ⟨x, rfl, h⟩

/-- A buffer is handed on only where every byte of it holds a value. -/
theorem withBuffer_next {b : Space} {m : Memory} {len : BitVec 64} {t : State} {k : List Byte → Result}
    (h : withBuffer b m len k = .next t) : ∃ x, m.readBytes 0 len.toNat = some x ∧ k x = .next t := by
  cases hm : m.readBytes 0 len.toNat with
  | none => rw [withBuffer_none hm] at h; cases h
  | some x => exact ⟨x, rfl, by rwa [withBuffer_some hm] at h⟩

/-- A port write changes only the port it names and the record that it holds a value. -/
theorem portWrite_next {w : PortWrite} {s t : State} (h : portWrite w s = .next t) :
    t.S = s.S ∧ t.phase = s.phase ∧ t.err = s.err ∧ t.dout = s.dout ∧ t.tag = s.tag ∧ t.ad = s.ad ∧ t.inp = s.inp ∧
    t.out = s.out ∧ t.outLen = s.outLen ∧ t.overlap = s.overlap ∧ t.host = s.host ∧ t.draws = s.draws ∧
    t.written.dout = s.written.dout ∧ t.written.tag = s.written.tag := by
  cases w <;> simp only [portWrite] at h <;> (try split at h) <;> cases h <;> simp

end Sys2Proof.Machine
end

