-- ==== Sys2Proof/Machine/Instantiation.lean ====
section
/-! DEFINITION. The general-knowledge instantiation GK of the open parameters (PRESUMED: 40_blockalgebra.md R58,
41_cipherstate.md R65, 93_implementation_defined.md G1 to G4; log 22) and commands over given parameters. No meaning
uses GK: it is there to run the source's known-answer vector. -/

namespace Sys2Proof.Machine

/-- Row `r` of the AES S-box as 40_blockalgebra.md R58 prints it, column 0 first. -/
def sboxRow (r : Nat) : Block :=
  match r with
  | 0x0 => 0x637c777bf26b6fc53001672bfed7ab76
  | 0x1 => 0xca82c97dfa5947f0add4a2af9ca472c0
  | 0x2 => 0xb7fd9326363ff7cc34a5e5f171d83115
  | 0x3 => 0x04c723c31896059a071280e2eb27b275
  | 0x4 => 0x09832c1a1b6e5aa0523bd6b329e32f84
  | 0x5 => 0x53d100ed20fcb15b6acbbe394a4c58cf
  | 0x6 => 0xd0efaafb434d338545f9027f503c9fa8
  | 0x7 => 0x51a3408f929d38f5bcb6da2110fff3d2
  | 0x8 => 0xcd0c13ec5f974417c4a77e3d645d1973
  | 0x9 => 0x60814fdc222a908846eeb814de5e0bdb
  | 0xA => 0xe0323a0a4906245cc2d3ac629195e479
  | 0xB => 0xe7c8376d8dd54ea96c56f4ea657aae08
  | 0xC => 0xba78252e1ca6b4c6e8dd741f4bbd8b8a
  | 0xD => 0x703eb5664803f60e613557b986c11d9e
  | 0xE => 0xe1f8981169d98e949b1e87e9ce5528df
  | _ => 0x8ca1890dbfe6426841992d0fb054bb16

/-- `SBOX[v]`: row by the high nibble, column by the low one (40_blockalgebra.md R58). -/
def sbox (v : Byte) : Byte :=
  (sboxRow (v.extractLsb' 4 4).toNat >>> (8 * (15 - (v.extractLsb' 0 4).toNat))).setWidth 8

/-- `2·a` in GF(2^8) (40_blockalgebra.md R58). -/
def xtime (a : Byte) : Byte := (a <<< 1) ^^^ (if a.msb then 0x1B#8 else 0x00#8)

/-- Byte `r + 4c` after SubBytes and ShiftRows (40_blockalgebra.md R58). -/
def subShift (b : Block) (r c : Nat) : Byte := sbox (byteOf b (r + 4 * ((c + r) % 4)))

/-- Row `r`, column `c` after MixColumns (40_blockalgebra.md R58). -/
def mixByte (b : Block) (r c : Nat) : Byte :=
  let a0 := subShift b r c
  let a1 := subShift b ((r + 1) % 4) c
  let a2 := subShift b ((r + 2) % 4) c
  let a3 := subShift b ((r + 3) % 4) c
  xtime a0 ^^^ (xtime a1 ^^^ a1) ^^^ a2 ^^^ a3

/-- One AES round without round key (40_blockalgebra.md R58; PRESUMED, G1). -/
def gkAesl (b : Block) : Block := ofBytes ((List.range 16).map fun i => mixByte b (i % 4) (i / 4))

/-- The table layout of 41_cipherstate.md R65 (PRESUMED, G4). -/
def gkTable : Vector InitSource 16 :=
  #v[.c0, .k1, .nonce, .c0, .zero, .k0XorNonce, .zero, .c1,
     .k1XorNonce, .zero, .k1, .c0, .c1, .k1, .zero, .c0XorC1]

/-- `C0` under GK (41_cipherstate.md R65; PRESUMED, G2). -/
def gkC0 : Block :=
  ofBytes [0x32, 0x43, 0xf6, 0xa8, 0x88, 0x5a, 0x30, 0x8d, 0x31, 0x31, 0x98, 0xa2, 0xe0, 0x37, 0x07, 0x34]

/-- `C1` under GK (41_cipherstate.md R65; PRESUMED, G3). -/
def gkC1 : Block :=
  ofBytes [0x4a, 0x40, 0x93, 0x82, 0x22, 0x99, 0xf3, 0x1d, 0x00, 0x82, 0xef, 0xa9, 0x8e, 0xc4, 0xe6, 0xc8]

/-- GK (00_scope.md R6). -/
def gk : Params := { aesl := gkAesl, c0 := gkC0, c1 := gkC1, initTable := gkTable }

/-- A command over given parameters: `exec` is this at `Config.params`. -/
def execWith (p : Params) (i : Instr) (s : State) : Result :=
  match i with
  | .init => cmdInit p s
  | .absorb => cmdAbsorb p s
  | .enc => cmdEnc p s
  | .dec => cmdDec p s
  | .decp n => cmdDecp p n s
  | .final => cmdFinal p s
  | .encrypt => cmdEncrypt p s
  | .decrypt => cmdDecrypt p s
  | .mac => cmdMac p s
  | .stream => cmdStream p s

end Sys2Proof.Machine
end

