-- ==== Sys2Proof/Laws/Exec.lean ====
section
/-! SUPPORT. What each command can do when it answers a next state, said once: its effect, InvalidSize or
ContractViolation, with the conditions of each. -/

namespace Sys2Proof.Machine

/-- The meanings are the commands at the machine's own parameters. -/
theorem exec_eq_execWith (i : Instr) (s : State) : exec i s = execWith Config.params i s := by cases i <;> rfl

theorem takesData_iff {ph : Phase} : ph.takesData = true ↔ ph = .initialized ∨ ph = .processing := by
  cases ph <;> simp [Phase.takesData]

/-- A command in a phase that does not allow it raises ContractViolation, whatever else holds (41_cipherstate.md R60). -/
theorem exec_contract {i : Instr} {s : State} (h : s.phase.allows i = false) :
    exec i s = .next (takeException .contract s) := by
  cases i with
  | decp n =>
    simp only [exec, execDecp, cmdDecp, checkPhase_neg h]
    split <;> rfl
  | init => exact checkPhase_neg h _
  | absorb => exact checkPhase_neg h _
  | enc => exact checkPhase_neg h _
  | dec => exact checkPhase_neg h _
  | final => exact checkPhase_neg h _
  | encrypt => exact checkPhase_neg h _
  | decrypt => exact checkPhase_neg h _
  | mac => exact checkPhase_neg h _
  | stream => exact checkPhase_neg h _

theorem keyBytes_ready {s : State} (h : s.KeyReady) : keyBytes s = some s.key := by simp [keyBytes, h.keyLen, h.key]

theorem nonceBytes_ready {s : State} (h : s.KeyReady) : nonceBytes s = some s.nonce := by
  simp [nonceBytes, h.nonceLen, h.nonce]

theorem keyBytes_eq_some {s : State} {x : List Byte} (h : keyBytes s = some x) :
    x = s.key ∧ s.key.length = s.keyLen.toNat := by
  unfold keyBytes at h
  split at h
  · next e => exact ⟨(Option.some.inj h).symm, e⟩
  · cases h

theorem nonceBytes_eq_some {s : State} {x : List Byte} (h : nonceBytes s = some x) :
    x = s.nonce ∧ s.nonce.length = s.nonceLen.toNat := by
  unfold nonceBytes at h
  split at h
  · next e => exact ⟨(Option.some.inj h).symm, e⟩
  · cases h

/-- The size check and the two key reads that follow it: InvalidSize, or a key and a nonce of the right sizes. -/
theorem checkedKey_next {s t : State} {k : List Byte → List Byte → Result}
    (h : (checkSizes s <| withPort .key (keyBytes s) fun key => withPort .nonce (nonceBytes s) fun nonce =>
      k key nonce) = .next t) :
    (s.KeyReady ∧ k s.key s.nonce = .next t) ∨
    (¬ (s.keyLen = 32#16 ∧ s.nonceLen = 16#16) ∧ t = takeException .invalidSize s) := by
  rcases checkSizes_next h with ⟨hk, hn, h⟩ | h
  · obtain ⟨key, hkey, h⟩ := withPort_next h
    obtain ⟨nonce, hnonce, h⟩ := withPort_next h
    obtain ⟨rfl, e1⟩ := keyBytes_eq_some hkey
    obtain ⟨rfl, e2⟩ := nonceBytes_eq_some hnonce
    exact .inl ⟨⟨hk, by rw [e1, hk]; rfl, hn, by rw [e2, hn]; rfl⟩, h⟩
  · exact .inr h

/-- With a key and a nonce of the right sizes the checks pass. -/
theorem checkedKey_ready {s : State} (hk : s.KeyReady) (k : List Byte → List Byte → Result) :
    (checkSizes s <| withPort .key (keyBytes s) fun key => withPort .nonce (nonceBytes s) fun nonce =>
      k key nonce) = k s.key s.nonce := by
  rw [checkSizes_pos hk.keyLen hk.nonceLen, keyBytes_ready hk, nonceBytes_ready hk]
  rfl

theorem cmdInit_next {p : Params} {s t : State} (h : cmdInit p s = .next t) :
    (s.phase = .uninitialized ∧ s.KeyReady ∧
      t = complete .init (clearKeyPorts { s with S := (Cipher.init p s.key s.nonce).S })) ∨
    (s.phase = .uninitialized ∧ ¬ (s.keyLen = 32#16 ∧ s.nonceLen = 16#16) ∧ t = takeException .invalidSize s) ∨
    (s.phase.allows .init = false ∧ t = takeException .contract s) := by
  rcases checkPhase_next h with ⟨hp, h⟩ | h
  · have hp : s.phase = .uninitialized := by simpa [Phase.allows] using hp
    rcases checkedKey_next h with ⟨hk, h⟩ | ⟨hs, rfl⟩
    · cases h
      exact .inl ⟨hp, hk, rfl⟩
    · exact .inr (.inl ⟨hp, hs, rfl⟩)
  · exact .inr (.inr h)

theorem dinBlock_eq_some {s : State} {x : Block} (h : dinBlock s = some x) : x = s.din ∧ 16 ≤ s.written.din := by
  unfold dinBlock at h
  split at h
  · next e => exact ⟨(Option.some.inj h).symm, e⟩
  · cases h

theorem dinBlock_ready {s : State} (h : 16 ≤ s.written.din) : dinBlock s = some s.din := by simp [dinBlock, h]

theorem cmdAbsorb_next {p : Params} {s t : State} (h : cmdAbsorb p s = .next t) :
    (s.phase.takesData = true ∧ 16 ≤ s.written.din ∧
      t = complete .absorb { s with S := ((Cipher.start s.S).absorb p s.din).S }) ∨
    (s.phase.takesData = false ∧ t = takeException .contract s) := by
  rcases checkPhase_next h with ⟨hp, h⟩ | h
  · obtain ⟨x, hx, h⟩ := withPort_next h
    obtain ⟨rfl, hd⟩ := dinBlock_eq_some hx
    cases h
    exact .inl ⟨hp, hd, rfl⟩
  · exact .inr h

theorem cmdEnc_next {p : Params} {s t : State} (h : cmdEnc p s = .next t) :
    (s.phase.takesData = true ∧ 16 ≤ s.written.din ∧
      t = complete .enc (putDout ((Cipher.start s.S).enc p s.din).2
        { s with S := ((Cipher.start s.S).enc p s.din).1.S })) ∨
    (s.phase.takesData = false ∧ t = takeException .contract s) := by
  rcases checkPhase_next h with ⟨hp, h⟩ | h
  · obtain ⟨x, hx, h⟩ := withPort_next h
    obtain ⟨rfl, hd⟩ := dinBlock_eq_some hx
    cases h
    exact .inl ⟨hp, hd, rfl⟩
  · exact .inr h

theorem cmdDec_next {p : Params} {s t : State} (h : cmdDec p s = .next t) :
    (s.phase.takesData = true ∧ 16 ≤ s.written.din ∧
      t = complete .dec (putDout ((Cipher.start s.S).dec p s.din).2
        { s with S := ((Cipher.start s.S).dec p s.din).1.S })) ∨
    (s.phase.takesData = false ∧ t = takeException .contract s) := by
  rcases checkPhase_next h with ⟨hp, h⟩ | h
  · obtain ⟨x, hx, h⟩ := withPort_next h
    obtain ⟨rfl, hd⟩ := dinBlock_eq_some hx
    cases h
    exact .inl ⟨hp, hd, rfl⟩
  · exact .inr h

theorem dinBytes_eq_some {n : Nat} {s : State} {x : List Byte} (h : dinBytes n s = some x) :
    x = (toBytes s.din).take n ∧ n ≤ s.written.din := by
  unfold dinBytes at h
  split at h
  · next e => exact ⟨(Option.some.inj h).symm, e⟩
  · cases h

theorem dinBytes_ready {n : Nat} {s : State} (h : n ≤ s.written.din) :
    dinBytes n s = some ((toBytes s.din).take n) := by simp [dinBytes, h]

theorem cmdDecp_next {p : Params} {n : BitVec 4} {s t : State} (h : cmdDecp p n s = .next t) :
    (n ≠ 0#4 ∧ s.phase.takesData = true ∧ n.toNat ≤ s.written.din ∧
      t = complete (.decp n) (putDout
        (ofBytes (padTo 16 ((Cipher.start s.S).decPartial p ((toBytes s.din).take n.toNat) n.toNat).2))
        { s with S := ((Cipher.start s.S).decPartial p ((toBytes s.din).take n.toNat) n.toNat).1.S })) ∨
    ((n = 0#4 ∨ s.phase.takesData = false) ∧ t = takeException .contract s) := by
  unfold cmdDecp at h
  split at h
  · next h0 =>
    cases h
    exact .inr ⟨.inl h0, rfl⟩
  · next h0 =>
    rcases checkPhase_next h with ⟨hp, h⟩ | h
    · obtain ⟨x, hx, h⟩ := withPort_next h
      obtain ⟨rfl, hd⟩ := dinBytes_eq_some hx
      cases h
      exact .inl ⟨h0, hp, hd, rfl⟩
    · exact .inr ⟨.inr h.1, h.2⟩

theorem cmdFinal_next {p : Params} {s t : State} (h : cmdFinal p s = .next t) :
    (s.phase.takesData = true ∧ s.written.adLenBits = true ∧ s.written.msgLenBits = true ∧
      t = complete .final (putTag ((Cipher.start s.S).finalize p s.adLenBits s.msgLenBits).2
        { s with S := ((Cipher.start s.S).finalize p s.adLenBits s.msgLenBits).1.S })) ∨
    (s.phase.takesData = false ∧ t = takeException .contract s) := by
  rcases checkPhase_next h with ⟨hp, h⟩ | h
  · obtain ⟨x, hx, h⟩ := withPort_next h
    obtain ⟨y, hy, h⟩ := withPort_next h
    unfold adLenOperand at hx
    unfold msgLenOperand at hy
    split at hx
    · next ha =>
      split at hy
      · next hm =>
        cases hx
        cases hy
        cases h
        exact .inl ⟨hp, ha, hm, rfl⟩
      · cases hy
    · cases hx
  · exact .inr h

theorem cmdEncrypt_next {p : Params} {s t : State} (h : cmdEncrypt p s = .next t) :
    (s.phase = .uninitialized ∧ s.adBytes.toNat < 2 ^ 61 ∧ s.inBytes.toNat < 2 ^ 61 ∧ s.overlap = false ∧
      s.KeyReady ∧ ∃ ad msg, s.ad.readBytes 0 s.adBytes.toNat = some ad ∧
        s.inp.readBytes 0 s.inBytes.toNat = some msg ∧
        t = complete .encrypt (clearKeyPorts (putTag (encryptBytes p s.key s.nonce ad msg).tag
          (putOut (encryptBytes p s.key s.nonce ad msg).text
            { s with S := (encryptBytes p s.key s.nonce ad msg).cipher.S })))) ∨
    (s.phase = .uninitialized ∧ ¬ (s.keyLen = 32#16 ∧ s.nonceLen = 16#16) ∧ t = takeException .invalidSize s) ∨
    (s.phase.allows .encrypt = false ∧ t = takeException .contract s) := by
  rcases checkPhase_next h with ⟨hp, h⟩ | h
  · have hp : s.phase = .uninitialized := by simpa [Phase.allows] using hp
    obtain ⟨ha, hi, ho, h⟩ := checkLaunch_next h
    rcases checkedKey_next h with ⟨hk, h⟩ | ⟨hs, rfl⟩
    · obtain ⟨ad, had, h⟩ := withBuffer_next h
      obtain ⟨msg, hmsg, h⟩ := withBuffer_next h
      cases h
      exact .inl ⟨hp, ha, hi, ho, hk, ad, msg, had, hmsg, rfl⟩
    · exact .inr (.inl ⟨hp, hs, rfl⟩)
  · exact .inr (.inr h)

theorem tagInOperand_eq_some {s : State} {x : Block} (h : tagInOperand s = some x) :
    x = s.tagIn ∧ s.written.tagIn = true := by
  unfold tagInOperand at h
  split at h
  · next e => exact ⟨(Option.some.inj h).symm, e⟩
  · cases h

/-- The comparison of DECRYPT decides equality of the two tags (40_blockalgebra.md R56). -/
theorem ctEq_tags (a b : Block) : (ctEq (toBytes a) (toBytes b)).equal = true ↔ a = b := by
  rw [ctEq_equal]
  exact ⟨toBytes_injective, fun h => h ▸ rfl⟩

theorem cmdDecrypt_next {p : Params} {s t : State} (h : cmdDecrypt p s = .next t) :
    (s.phase = .uninitialized ∧ s.adBytes.toNat < 2 ^ 61 ∧ s.inBytes.toNat < 2 ^ 61 ∧ s.overlap = false ∧
      s.KeyReady ∧ s.written.tagIn = true ∧ ∃ ad ct, s.ad.readBytes 0 s.adBytes.toNat = some ad ∧
        s.inp.readBytes 0 s.inBytes.toNat = some ct ∧
        ((s.tagIn = (decryptBytes p s.key s.nonce ad ct).tag ∧
          t = complete .decrypt (decryptWork (decryptBytes p s.key s.nonce ad ct) s)) ∨
         (s.tagIn ≠ (decryptBytes p s.key s.nonce ad ct).tag ∧
          t = takeException .authFail (decryptWork (decryptBytes p s.key s.nonce ad ct) s)))) ∨
    (s.phase = .uninitialized ∧ ¬ (s.keyLen = 32#16 ∧ s.nonceLen = 16#16) ∧ t = takeException .invalidSize s) ∨
    (s.phase.allows .decrypt = false ∧ t = takeException .contract s) := by
  rcases checkPhase_next h with ⟨hp, h⟩ | h
  · have hp : s.phase = .uninitialized := by simpa [Phase.allows] using hp
    obtain ⟨ha, hi, ho, h⟩ := checkLaunch_next h
    rcases checkedKey_next h with ⟨hk, h⟩ | ⟨hs, rfl⟩
    · obtain ⟨tg, htg, h⟩ := withPort_next h
      obtain ⟨rfl, ht⟩ := tagInOperand_eq_some htg
      obtain ⟨ad, had, h⟩ := withBuffer_next h
      obtain ⟨ct, hct, h⟩ := withBuffer_next h
      simp only [ctEq_tags] at h
      split at h
      · next he =>
        cases h
        exact .inl ⟨hp, ha, hi, ho, hk, ht, ad, ct, had, hct, .inl ⟨he, rfl⟩⟩
      · next he =>
        cases h
        exact .inl ⟨hp, ha, hi, ho, hk, ht, ad, ct, had, hct, .inr ⟨he, rfl⟩⟩
    · exact .inr (.inl ⟨hp, hs, rfl⟩)
  · exact .inr (.inr h)

theorem cmdMac_next {p : Params} {s t : State} (h : cmdMac p s = .next t) :
    (s.phase = .uninitialized ∧ s.adBytes.toNat < 2 ^ 61 ∧ s.inBytes.toNat < 2 ^ 61 ∧ s.overlap = false ∧
      s.KeyReady ∧ ∃ data, s.ad.readBytes 0 s.adBytes.toNat = some data ∧
        t = complete .mac (clearKeyPorts (putTag (macBytes p s.key s.nonce data).tag
          { s with S := (macBytes p s.key s.nonce data).cipher.S, outLen := 0 }))) ∨
    (s.phase = .uninitialized ∧ ¬ (s.keyLen = 32#16 ∧ s.nonceLen = 16#16) ∧ t = takeException .invalidSize s) ∨
    (s.phase.allows .mac = false ∧ t = takeException .contract s) := by
  rcases checkPhase_next h with ⟨hp, h⟩ | h
  · have hp : s.phase = .uninitialized := by simpa [Phase.allows] using hp
    obtain ⟨ha, hi, ho, h⟩ := checkLaunch_next h
    rcases checkedKey_next h with ⟨hk, h⟩ | ⟨hs, rfl⟩
    · obtain ⟨ad, had, h⟩ := withBuffer_next h
      cases h
      exact .inl ⟨hp, ha, hi, ho, hk, ad, had, rfl⟩
    · exact .inr (.inl ⟨hp, hs, rfl⟩)
  · exact .inr (.inr h)

theorem cmdStream_next {p : Params} {s t : State} (h : cmdStream p s = .next t) :
    (s.phase = .uninitialized ∧ s.adBytes.toNat < 2 ^ 61 ∧ s.overlap = false ∧ s.inBytes = 0#64 ∧
      t = complete .stream { s with outLen := 0 }) ∨
    (s.phase = .uninitialized ∧ s.adBytes.toNat < 2 ^ 61 ∧ s.overlap = false ∧ s.inBytes ≠ 0#64 ∧
      s.inBytes.toNat < 2 ^ 61 ∧ s.KeyReady ∧
      t = complete .stream (clearKeyPorts (putOut (streamBytes p s.key s.nonce s.inBytes.toNat).text
        { s with S := (streamBytes p s.key s.nonce s.inBytes.toNat).cipher.S }))) ∨
    (s.phase = .uninitialized ∧ s.inBytes ≠ 0#64 ∧ ¬ (s.keyLen = 32#16 ∧ s.nonceLen = 16#16) ∧
      t = takeException .invalidSize s) ∨
    (s.phase.allows .stream = false ∧ t = takeException .contract s) := by
  rcases checkPhase_next h with ⟨hp, h⟩ | h
  · have hp : s.phase = .uninitialized := by simpa [Phase.allows] using hp
    obtain ⟨ha, hi, ho, h⟩ := checkLaunch_next h
    split at h
    · next h0 =>
      cases h
      exact .inl ⟨hp, ha, ho, h0, rfl⟩
    · next h0 =>
      rcases checkedKey_next h with ⟨hk, h⟩ | ⟨hs, rfl⟩
      · cases h
        exact .inr (.inl ⟨hp, ha, ho, h0, hi, hk, rfl⟩)
      · exact .inr (.inr (.inl ⟨hp, h0, hs, rfl⟩))
  · exact .inr (.inr (.inr h))

end Sys2Proof.Machine
end

