-- ==== Sys2Proof/Laws/PerInstr.lean ====
section
/-! SUPPORT. Families of lemmas about an instruction as syntax, one lemma per constructor. -/

namespace Sys2Proof.Laws.EncodedFields

/-- The fields of a command's word (30_encoding.md R41, R42): `arg` is the byte count of DECP and 0 on every other
command, and `op` is none of the reserved ones (R44). -/
def Statement (i : Instr) : Prop :=
  (argField (encode i) = match i with | .decp n => n | _ => 0#4) ∧
  (opField (encode i)).toNat ∉ [0x0, 0x7, 0xC, 0xD, 0xE, 0xF]

theorem init : Statement .init := ⟨rfl, by decide⟩
theorem absorb : Statement .absorb := ⟨rfl, by decide⟩
theorem enc : Statement .enc := ⟨rfl, by decide⟩
theorem dec : Statement .dec := ⟨rfl, by decide⟩
theorem decp (n : BitVec 4) : Statement (.decp n) := by
  refine ⟨?_, ?_⟩ <;> revert n <;> decide
theorem final : Statement .final := ⟨rfl, by decide⟩
theorem encrypt : Statement .encrypt := ⟨rfl, by decide⟩
theorem decrypt : Statement .decrypt := ⟨rfl, by decide⟩
theorem mac : Statement .mac := ⟨rfl, by decide⟩
theorem stream : Statement .stream := ⟨rfl, by decide⟩

end Sys2Proof.Laws.EncodedFields
end

