-- ==== Sys2Proof/Tests/Slice0.lean ====
section
/-! SUPPORT. The model's own tests. Expected values are those of spec/95_test_vectors.md (V-… and P…) or written out from
30_encoding.md R42; then a witness for the hypotheses of every statement that has some. -/

namespace Sys2Proof.Tests

open Sys2Proof Sys2Proof.Machine

/-! ### Helpers -/

/-- A Block from its hexadecimal string read as a number: byte 0 is the most significant (00_scope.md R7). -/
def hexBlock (n : Nat) : Block := ofBytes ((List.range 16).map fun i => BitVec.ofNat 8 (n >>> (8 * (15 - i))))

/-- `len` bytes counting up from `start`. -/
def upFrom (start len : Nat) : List Byte := (List.range len).map fun i => BitVec.ofNat 8 (start + i)

/-- The instantiation TOY of 95_test_vectors.md section 3. -/
def toy : Params where
  aesl b := ofBytes ((List.range 16).map fun j => byteOf b ((j + 1) % 16) + BitVec.ofNat 8 (j + 1))
  c0 := hexBlock 0x000102030405060708090a0b0c0d0e0f
  c1 := hexBlock 0xf0e0d0c0b0a090807060504030201000
  initTable := gkTable

/-- The start state `SV` of 95_test_vectors.md section 3. -/
def SV : StateReg := Vector.ofFn fun i => ofBytes (upFrom (16 * i.val) 16)

/-- The input Block `X` of the same section. -/
def X : Block := hexBlock 0xa0a1a2a3a4a5a6a7a8a9aaabacadaeaf

/-- An engine in Initialized with state register `SV`, and `DIN` and the lengths written. -/
def sv (din : Block) (a m : BitVec 64) : State :=
  { State.reset with
    S := SV, phase := .initialized, din := din, adLenBits := a, msgLenBits := m
    written := { State.reset.written with din := 16, adLenBits := true, msgLenBits := true } }

/-- An engine after reset with key `20 .. 3f` and nonce `80 .. 8f` in the ports. -/
def ready : State :=
  { State.reset with keyLen := 32#16, key := upFrom 0x20 32, nonceLen := 16#16, nonce := upFrom 0x80 16 }

/-- `ready` with contents of `AD` and `IN`. -/
def readyWith (ad inp : List Byte) : State :=
  { ready with
    ad := Memory.writeBytes [] 0 ad, adBytes := BitVec.ofNat 64 ad.length
    inp := Memory.writeBytes [] 0 inp, inBytes := BitVec.ofNat 64 inp.length }

/-- A property of the next state; false where there is none. -/
def after (r : Result) (f : State → Bool) : Bool :=
  match r with
  | .next t => f t
  | .fault _ => false
  | .refused _ => false

/-! ### Syntax, well-formedness, decoding -/

theorem test_wf_refuses_decp_of_no_bytes : (Instr.decp 0#4).wf = false := by decide

theorem test_decode_init : decode 0b00010000#8 = .command .init := by decide
theorem test_decode_absorb : decode 0b00100000#8 = .command .absorb := by decide
theorem test_decode_enc : decode 0b00110000#8 = .command .enc := by decide
theorem test_decode_dec : decode 0b01000000#8 = .command .dec := by decide
theorem test_decode_decp_1 : decode 0b01010001#8 = .command (.decp 1#4) := by decide
theorem test_decode_decp_15 : decode 0b01011111#8 = .command (.decp 15#4) := by decide
theorem test_decode_final : decode 0b01100000#8 = .command .final := by decide
theorem test_decode_encrypt : decode 0b10000000#8 = .command .encrypt := by decide
theorem test_decode_decrypt : decode 0b10010000#8 = .command .decrypt := by decide
theorem test_decode_mac : decode 0b10100000#8 = .command .mac := by decide
theorem test_decode_stream : decode 0b10110000#8 = .command .stream := by decide
theorem test_decode_reserved :
    decode 0x00#8 = .reserved .reservedOp ∧ decode 0x50#8 = .reserved .zeroBytes ∧
    decode 0x31#8 = .reserved .nonZeroArg ∧ decode 0x70#8 = .reserved .reservedOp ∧
    decode 0xFF#8 = .reserved .reservedOp := by decide

/-! ### Block algebra (V-S1, V-D1 to V-D6) -/

theorem test_xor3 : xor3Bytes [0x01, 0x02] [0x10, 0x20] [0x11, 0x22] = some [0x00, 0x00] := by decide
theorem test_xor_lengths : xorBytes [0x01] [0x01, 0x02] = none := by decide
theorem test_zeropad : zeroPad [0x01, 0x02, 0x03] 32 = some [0x01, 0x02, 0x03, 0x00] := by decide
theorem test_truncate :
    truncate [0xff, 0xff, 0xff] 12 = some [0xff, 0x0f] ∧
    truncate [0xa1, 0xb2, 0xc3, 0xd4] 31 = some [0xa1, 0xb2, 0xc3, 0x54] ∧
    truncate [0xa1, 0xb2, 0xc3, 0xd4] 9 = some [0xa1, 0x00] := by decide
theorem test_tail :
    tail [0xa1, 0xb2, 0xc3, 0xd4] 9 = some [0xa9, 0x01] ∧ tail [0xa1, 0xb2, 0xc3, 0xd4] 12 = some [0x4c, 0x0d] ∧
    tail [0xa1, 0xb2, 0xc3, 0xd4] 31 = some [0x50, 0xd9, 0x61, 0x6a] := by decide
theorem test_le64 : le64 0x0102030405060708#64 = [0x08, 0x07, 0x06, 0x05, 0x04, 0x03, 0x02, 0x01] := by decide
theorem test_cteq :
    ctEq (upFrom 0 16) (upFrom 0 16) = ⟨true, 32⟩ ∧ ctEq (upFrom 0 16) (upFrom 0 15 ++ [0x0e]) = ⟨false, 32⟩ ∧
    ctEq (upFrom 0 16) (upFrom 0 15) = ⟨false, 0⟩ ∧ ctEq [] [] = ⟨true, 0⟩ := by decide +kernel

/-! ### Commands under TOY (V-D10 to V-D16) -/

/-- V-D10. -/
theorem test_absorb : after (cmdAbsorb toy (sv X 0 0)) (fun t =>
    t.S[2] == hexBlock 0x90909090909090909090909090909090 && t.S[12] == hexBlock 0x70707070707070707070707070707070 &&
    t.S[15] == hexBlock 0x6367676f6b6f6f5f5357575f5b5f5f6f && t.S[0] == SV[1] && t.phase == .processing) = true := by
  decide +kernel

/-- V-D11, with `S[9]` read before the UPDATE. -/
theorem test_enc : after (cmdEnc toy (sv X 0 0)) (fun t =>
    t.dout == hexBlock 0x2122232425262728292a2b2c2d2e2f10 && t.S[8] == SV[9] && t.err == .ok) = true := by
  decide +kernel

/-- V-D11, corner case of the zero Block. -/
theorem test_enc_zero : after (cmdEnc toy (sv 0#128 0 0)) (fun t =>
    t.dout == hexBlock 0x818381878183818f81838187818381bf &&
    t.S[15] == hexBlock 0xc3c6c5cccfcac9f8fbfefdf4f7f2f1c0) = true := by decide +kernel

/-- V-D12. -/
theorem test_dec : after (cmdDec toy (sv (hexBlock 0x2122232425262728292a2b2c2d2e2f10) 0 0)) (fun t =>
    t.dout == X && t.S[15] == hexBlock 0x6367676f6b6f6f5f5357575f5b5f5f6f) = true := by decide +kernel

/-- V-D12, corner case of one flipped bit. -/
theorem test_dec_flipped : after (cmdDec toy (sv (hexBlock 0x2022232425262728292a2b2c2d2e2f10) 0 0)) (fun t =>
    t.dout == hexBlock 0xa1a1a2a3a4a5a6a7a8a9aaabacadaeaf &&
    t.S[15] == hexBlock 0x6267676f6b6f6f5f5357575f5b5f5f6f) = true := by decide +kernel

/-- V-D13, `n = 5`: the bytes of `DIN` from 5 on are ignored. -/
theorem test_decp_5 : after (cmdDecp toy 5#4 (sv (hexBlock 0x2122232425ffffffffffffffffffffff) 0 0)) (fun t =>
    t.dout == hexBlock 0xa0a1a2a3a40000000000000000000000 && t.S[2] == hexBlock 0x909090909035363738393a3b3c3d3e3f &&
    t.S[12] == hexBlock 0x7070707070d5d6d7d8d9dadbdcdddedf &&
    t.S[15] == hexBlock 0x6367676f6bcac9f8fbfefdf4f7f2f1c0) = true := by decide +kernel

/-- V-D13, `n = 15`. -/
theorem test_decp_15 : after (cmdDecp toy 15#4 (sv (hexBlock 0x2122232425262728292a2b2c2d2e2f00) 0 0)) (fun t =>
    t.dout == hexBlock 0xa0a1a2a3a4a5a6a7a8a9aaabacadae00 &&
    t.S[15] == hexBlock 0x6367676f6b6f6f5f5357575f5b5f5fc0) = true := by decide +kernel

/-- V-D15, first row: byte order and operand order of the length block. -/
theorem test_final : after (cmdFinal toy (sv X 0x0102030405060708 0x1112131415161718)) (fun t =>
    t.tag == hexBlock 0x73e7b3cfcbe7831713c773bf8bb71337 && t.phase == .finalized) = true := by decide +kernel

/-- V-D16. -/
theorem test_init : after (cmdInit toy ready) (fun t =>
    t.S[0] == hexBlock 0xad91b501251135397d41d50155b1f5a9 && t.S[9] == hexBlock 0x3113319f117b295f41c3c18f812ba9ff &&
    t.S[13] == hexBlock 0xcab7cc31aecb500d124fa48996e30845 && t.keyLen == 0#16 && t.key == []) = true := by
  decide +kernel

/-- P5: InvalidSize leaves the key ports. -/
theorem test_init_short_key : after (cmdInit toy { ready with keyLen := 31#16, key := upFrom 0x20 31 }) (fun t =>
    t.err == .invalidSize && t.phase == .uninitialized && t.keyLen == 31#16) = true := by decide +kernel

/-! ### Macro-commands under TOY (P2 to P4) and GK (V-S2) -/

/-- P2: three bytes of associated data, 21 bytes of message. -/
theorem test_encrypt : after (cmdEncrypt toy (readyWith (upFrom 1 3) (upFrom 0x61 21))) (fun t =>
    t.tag == hexBlock 0xa762c8d3ba39e02bb2a2e02877183f6d &&
    t.out.readBytes 0 16 == some (toBytes (hexBlock 0xdfc461ee4bb8058277fc997643f08dca)) &&
    t.out.readBytes 16 5 == some [0x47, 0x7a, 0xed, 0x11, 0x4d] && t.out.read 21 == none) = true := by decide +kernel

/-- V-S2, the source's known-answer tag, under GK. -/
theorem test_known_answer :
    (encryptBytes gk
      (toBytes (hexBlock 0x4b7a9c3ef8d2165a0b3e5f8c9d4a7b1e) ++ toBytes (hexBlock 0x2c5f8a9d3b6e4c7f0a1d2e5b8c9f4a7d))
      (toBytes (hexBlock 0xa5b8c2d9e3f4a7b1c8d5e9f2a3b6c7d8)) [] []).tag =
    hexBlock 0xe3b7c5993e804d7e1f95905fe8fa1d74 := by decide +kernel

/-- The ciphertext of P2. -/
def ciphertext : List Byte :=
  toBytes (hexBlock 0xdfc461ee4bb8058277fc997643f08dca) ++ [0x47, 0x7a, 0xed, 0x11, 0x4d]

/-- An engine ready to decrypt it. -/
def receiver (tag : Block) : State :=
  { readyWith (upFrom 1 3) ciphertext with
    tagIn := tag, written := { State.reset.written with tagIn := true } }

/-- P2: accepted; `TAG` is not written. -/
theorem test_decrypt : after (cmdDecrypt toy (receiver (hexBlock 0xa762c8d3ba39e02bb2a2e02877183f6d))) (fun t =>
    t.err == .ok && t.out.readBytes 0 21 == some (upFrom 0x61 21) && !t.written.tag) = true := by decide +kernel

/-- P4: one bit of the tag changed. -/
theorem test_decrypt_rejects : after (cmdDecrypt toy (receiver (hexBlock 0xa662c8d3ba39e02bb2a2e02877183f6d))) (fun t =>
    t.err == .authFail && t.phase == .finalized && t.out.readBytes 0 21 == some (List.replicate 21 0#8) &&
    t.S[0] == hexBlock 0xc636597272ba7ec252f2490053494f87) = true := by decide +kernel

/-- P3. -/
theorem test_mac : after (cmdMac toy (readyWith (upFrom 1 3) [])) (fun t =>
    t.tag == hexBlock 0x0bba394c13a5306e991cf73f0211db09 && t.out == [] && t.phase == .finalized) = true := by
  decide +kernel

/-- P3, with the nonce of P1. -/
theorem test_stream : after (cmdStream toy { ready with inBytes := 20#64 }) (fun t =>
    t.out.readBytes 0 16 == some (toBytes (hexBlock 0x2340b11ae7ccf5ae6b9849d27f74dda6)) &&
    t.out.readBytes 16 4 == some [0xbe, 0xa6, 0x02, 0x8a] && t.out.length == 20 && !t.written.tag) = true := by
  decide +kernel

/-- P3: STREAM of no bytes from reset, whatever the key ports. -/
theorem test_stream_of_nothing : after (cmdStream toy State.reset) (fun t => t == State.reset) = true := by decide +kernel

/-! ### Exceptions and the host (P6, 30_encoding.md R48) -/

/-- P6: ENC in Uninitialized; the fault is sticky. -/
theorem test_contract : after (exec .enc State.reset) (fun t =>
    t.phase == .faulted && t.err == .contract && after (exec .init t) (fun u => u.phase == .faulted)) = true := by rfl

/-- P6: the reserved word 0x31. -/
theorem test_reserved_word : after (step { State.reset with host := [.command 0x31#8] }) (fun t =>
    t.phase == .faulted && t.host == []) = true := by rfl

/-- STREAM's nonce left out is 16 zero bytes (30_encoding.md R48). -/
theorem test_default_nonce :
    (AsmLine.stream 20#64 (upFrom 0x20 32) none).expand =
    (AsmLine.stream 20#64 (upFrom 0x20 32) (some (List.replicate 16 0#8))).expand := by decide +kernel

/-- R99: the order the host keeps, and P7's order, which it does not. -/
theorem test_host_order :
    hostOrder [.init, .absorb, .dec, .decp 5#4, .final] = true ∧ hostOrder [.init, .enc, .absorb, .final] = false := by
  decide

/-! ### Witnesses: what meets the hypotheses of each statement, at the boundaries of its clauses -/

/-- An engine in Processing with exactly `n` bytes of `DIN` written. -/
def mid (n : Nat) : State :=
  { State.reset with phase := .processing, din := X, written := { State.reset.written with din := n } }

/-- An engine in Faulted. -/
def faulted : State := { State.reset with phase := .faulted, err := .contract }

/-- `ready`, with one byte of `AD`, one of `IN`, and a byte in `OUT` past them. -/
def small : State := { readyWith [0x01] [0x61] with out := [(5, 0xee)] }

/-- `small` with the tag that a DECRYPT of its buffers expects, changed in the bits of `flip`. -/
def smallReceiver (flip : Block) : State :=
  { small with
    tagIn := (decryptBytes Config.params small.key small.nonce [0x01] [0x61]).tag ^^^ flip
    written := { State.reset.written with tagIn := true } }

theorem ready_keyReady : ready.KeyReady := ⟨rfl, rfl, rfl, rfl⟩

theorem small_keyReady : small.KeyReady := ⟨rfl, rfl, rfl, rfl⟩

theorem witness_DecodeOfEncode : (Instr.decp 1#4).wf = true ∧ (Instr.decp 15#4).wf = true := by decide

theorem witness_EncodeOfDecode : decode 0x5F#8 = .command (.decp 15#4) := by decide

theorem witness_ReservedWordsExactly :
    { State.reset with host := [.command 0x50#8] }.host = [.command 0x50#8] ∧ decode 0x50#8 = .reserved .zeroBytes := by
  decide

theorem witness_StepRunsTheCommand :
    { State.reset with host := [.command 0x10#8] }.host = [.command 0x10#8] ∧ decode 0x10#8 = .command .init ∧
    decodeTableWord 8 0x5F = some (.decp 15#4) ∧ State.reset.host = [] := by decide

theorem witness_ResetEventInEveryPhase : { faulted with host := [.reset] }.host = [.reset] := rfl

theorem witness_InitResult : ready.phase = .uninitialized ∧ ready.KeyReady := ⟨rfl, ready_keyReady⟩

/-- For AbsorbResult, EncResult, DecResult, in both phases. -/
theorem witness_data_results :
    ((sv X 0 0).phase = .initialized ∧ 16 ≤ (sv X 0 0).written.din) ∧
    ((mid 16).phase = .processing ∧ 16 ≤ (mid 16).written.din) := by decide

theorem witness_DecpResult :
    (1#4 ≠ 0#4 ∧ (mid 1).phase = .processing ∧ (1#4).toNat ≤ (mid 1).written.din) ∧
    (15#4 ≠ 0#4 ∧ (mid 15).phase = .processing ∧ (15#4).toNat ≤ (mid 15).written.din) := by decide

theorem witness_FinalResult :
    (sv X 0 0).phase = .initialized ∧ (sv X 0 0).written.adLenBits = true ∧ (sv X 0 0).written.msgLenBits = true := by
  decide

theorem witness_DecUndoesEnc : (mid 16).phase = .processing ∧ ∃ t, exec .enc (mid 16) = .next t := ⟨rfl, _, rfl⟩

theorem witness_DecpUndoesPaddedEnc :
    5#4 ≠ 0#4 ∧ (upFrom 1 5).length = (5#4).toNat ∧
    ∃ t, exec .enc { mid 16 with din := ofBytes (upFrom 1 5) } = .next t := ⟨by decide, rfl, _, rfl⟩

theorem witness_EncryptResult :
    small.phase = .uninitialized ∧ small.KeyReady ∧ small.overlap = false ∧ small.adBytes.toNat < 2 ^ 61 ∧
    small.inBytes.toNat < 2 ^ 61 ∧ small.ad.readBytes 0 small.adBytes.toNat = some [0x01] ∧
    small.inp.readBytes 0 small.inBytes.toNat = some [0x61] :=
  ⟨rfl, small_keyReady, rfl, by decide, by decide, rfl, rfl⟩

theorem smallReceiver_ready (flip : Block) :
    (smallReceiver flip).phase = .uninitialized ∧ (smallReceiver flip).KeyReady ∧ (smallReceiver flip).overlap = false ∧
    (smallReceiver flip).adBytes.toNat < 2 ^ 61 ∧ (smallReceiver flip).inBytes.toNat < 2 ^ 61 ∧
    (smallReceiver flip).written.tagIn = true ∧
    (smallReceiver flip).ad.readBytes 0 (smallReceiver flip).adBytes.toNat = some [0x01] ∧
    (smallReceiver flip).inp.readBytes 0 (smallReceiver flip).inBytes.toNat = some [0x61] :=
  ⟨rfl, ⟨rfl, rfl, rfl, rfl⟩, rfl, (by show (1 : Nat) < 2 ^ 61; decide), (by show (1 : Nat) < 2 ^ 61; decide), rfl, rfl, rfl⟩

/-- With `smallReceiver_ready`. -/
theorem witness_DecryptAccepts :
    (smallReceiver 0).tagIn =
      (decryptBytes Config.params (smallReceiver 0).key (smallReceiver 0).nonce [0x01] [0x61]).tag := BitVec.xor_zero

/-- With `smallReceiver_ready`: bit 0 of the tag changed. -/
theorem witness_DecryptRejects :
    (smallReceiver 1).tagIn ≠
      (decryptBytes Config.params (smallReceiver 1).key (smallReceiver 1).nonce [0x01] [0x61]).tag := by
  intro h
  have h' := congrArg (fun b : Block => b.getLsbD 0) h
  simp [smallReceiver, small, readyWith] at h'

theorem witness_MacResult :
    small.phase = .uninitialized ∧ small.KeyReady ∧ small.overlap = false ∧ small.adBytes.toNat < 2 ^ 61 ∧
    small.inBytes.toNat < 2 ^ 61 ∧ small.ad.readBytes 0 small.adBytes.toNat = some [0x01] :=
  ⟨rfl, small_keyReady, rfl, by decide, by decide, rfl⟩

theorem witness_StreamResult :
    small.phase = .uninitialized ∧ small.KeyReady ∧ small.overlap = false ∧ small.inBytes ≠ 0#64 ∧
    small.adBytes.toNat < 2 ^ 61 ∧ small.inBytes.toNat < 2 ^ 61 :=
  ⟨rfl, small_keyReady, rfl, by decide, by decide, by decide⟩

theorem witness_StreamOfNothing :
    State.reset.phase = .uninitialized ∧ State.reset.overlap = false ∧ State.reset.adBytes.toNat < 2 ^ 61 ∧
    State.reset.inBytes = 0#64 := by decide

theorem witness_EncryptIsItsPrimitives :
    small.ad.readBytes 0 small.adBytes.toNat = some [0x01] ∧ small.inp.readBytes 0 small.inBytes.toNat = some [0x61] ∧
    ∃ t, exec .encrypt small = .next t ∧ t.err = .ok := ⟨rfl, rfl, _, rfl, rfl⟩

/-- DECRYPT of `smallReceiver` answers a next state, accepting or not. -/
theorem smallReceiver_runs (flip : Block) : ∃ t, exec .decrypt (smallReceiver flip) = .next t ∧
    (t.err = .ok ∨ t.err = .authFail) := by
  obtain ⟨hp, hk, ho, ha, hi, ht, had, hct⟩ := smallReceiver_ready flip
  have e : exec .decrypt (smallReceiver flip) = cmdDecrypt Config.params (smallReceiver flip) := rfl
  have e' : tagInOperand (smallReceiver flip) = some (smallReceiver flip).tagIn := rfl
  rw [e, cmdDecrypt, checkPhase_pos rfl, checkLaunch_pos ha hi ho, checkedKey_ready hk, e', withPort_some, withBuffer_some had, withBuffer_some hct]
  simp only
  split
  · exact ⟨_, rfl, .inl rfl⟩
  · exact ⟨_, rfl, .inr rfl⟩

theorem witness_DecryptIsItsPrimitives :
    ∃ t, exec .decrypt (smallReceiver 0) = .next t ∧ t.err ≠ .invalidSize := by
  obtain ⟨t, h, he⟩ := smallReceiver_runs 0
  exact ⟨t, h, by rcases he with he | he <;> simp [he]⟩

theorem witness_RoundTrip : ∃ s t u : State, s.phase = .uninitialized ∧ exec .encrypt s = .next t ∧ t.err = .ok ∧
    u.phase = .uninitialized ∧ u.overlap = false ∧ u.keyLen = s.keyLen ∧ u.key = s.key ∧ u.nonceLen = s.nonceLen ∧
    u.nonce = s.nonce ∧ u.adBytes = s.adBytes ∧ u.inBytes = s.inBytes ∧
    (∀ a, a < s.adBytes.toNat → u.ad.read a = s.ad.read a) ∧
    (∀ a, a < s.inBytes.toNat → u.inp.read a = t.out.read a) ∧ u.written.tagIn = true ∧ u.tagIn = t.tag := by
  obtain ⟨t, h, he⟩ : ∃ t, exec .encrypt small = .next t ∧ t.err = .ok := ⟨_, rfl, rfl⟩
  exact ⟨small, t, { small with inp := t.out, tagIn := t.tag, written := { small.written with tagIn := true } },
    rfl, h, he, rfl, rfl, rfl, rfl, rfl, rfl, rfl, rfl, fun _ _ => rfl, fun _ _ => rfl, rfl, rfl⟩

theorem witness_MacIsEncryptOfNothing :
    small.phase = .uninitialized ∧ ∃ t, exec .mac small = .next t ∧ t.err = .ok := ⟨rfl, _, rfl, rfl⟩

theorem witness_StreamIsEncryptOfZeros :
    small.phase = .uninitialized ∧ small.inBytes ≠ 0#64 ∧ (∃ t, exec .stream small = .next t ∧ t.err = .ok) ∧
    ∀ a, a < small.inBytes.toNat → Memory.read [(0, 0x00)] a = some 0#8 := by
  refine ⟨rfl, by decide, ⟨_, rfl, rfl⟩, fun a h => ?_⟩
  have h1 : small.inBytes.toNat = 1 := rfl
  have h0 : a = 0 := by omega
  subst h0
  rfl

theorem witness_DecryptWorkIgnoresTag : ∃ t u, exec .decrypt (smallReceiver 0) = .next t ∧
    exec .decrypt { smallReceiver 0 with tagIn := (smallReceiver 1).tagIn } = .next u ∧ t.phase ≠ .faulted := by
  obtain ⟨t, h, he⟩ := smallReceiver_runs 0
  obtain ⟨u, h', -⟩ := smallReceiver_runs 1
  refine ⟨t, u, h, h', fun hf => ?_⟩
  have hc : cmdDecrypt Config.params (smallReceiver 0) = .next t := h
  rcases cmdDecrypt_next hc with ⟨-, -, -, -, -, -, _, _, -, -, ⟨-, rfl⟩ | ⟨-, rfl⟩⟩ | ⟨-, -, rfl⟩ | ⟨h1, -⟩
  · cases hf
  · cases hf
  · cases hf
  · cases h1

theorem witness_ContractViolationEntry :
    (Instr.init ∈ [Instr.init, .encrypt, .decrypt, .mac, .stream] ∧ (mid 16).phase ≠ .uninitialized) ∧
    (Instr.final ∈ [Instr.absorb, .enc, .dec, .final] ∧ State.reset.phase ≠ .initialized ∧
      State.reset.phase ≠ .processing) := by decide

theorem witness_InvalidSizeEntry :
    (State.reset.phase = .uninitialized ∧ ¬ (State.reset.keyLen = 32#16 ∧ State.reset.nonceLen = 16#16) ∧
      State.reset.overlap = false) ∧
    ({ ready with nonceLen := 15#16, inBytes := 0x1FFFFFFFFFFFFFFF#64 }.inBytes.toNat < 2 ^ 61 ∧
      ¬ ({ ready with nonceLen := 15#16 }.keyLen = 32#16 ∧ { ready with nonceLen := 15#16 }.nonceLen = 16#16)) := by
  decide

theorem witness_PhaseMovesAlongTheTable :
    (∃ t, exec .init ready = .next t) ∧ (∃ t, exec .enc (mid 16) = .next t) ∧ (∃ t, exec .final (sv X 0 0) = .next t) ∧
    (∃ t, exec .mac small = .next t) ∧ (∃ t, exec .init State.reset = .next t) ∧
    (∃ t, exec .stream State.reset = .next t) ∧ (∃ t, exec .final State.reset = .next t) :=
  ⟨⟨_, rfl⟩, ⟨_, rfl⟩, ⟨_, rfl⟩, ⟨_, rfl⟩, ⟨_, rfl⟩, ⟨_, rfl⟩, ⟨_, rfl⟩⟩

theorem witness_FaultedIsSticky :
    faulted.phase = .faulted ∧ (∀ rest, faulted.host ≠ .reset :: rest) ∧ step faulted = .next faulted ∧
    { faulted with host := [.command 0x10#8] }.host = [.command 0x10#8] :=
  ⟨rfl, fun _ h => (by cases h), rfl, rfl⟩

theorem witness_KeyPortsCleared : (∃ t, exec .mac small = .next t ∧ t.err = .ok) ∧
    ∃ t, exec .init { ready with nonceLen := 15#16 } = .next t ∧ t.err = .invalidSize := ⟨⟨_, rfl, rfl⟩, ⟨_, rfl, rfl⟩⟩

theorem witness_UnwrittenOperandsRefused :
    ((mid 15).phase = .processing ∧ (mid 15).written.din < 16) ∧
    (15#4 ≠ 0#4 ∧ (mid 14).written.din < (15#4).toNat) ∧
    (mid 16).written.adLenBits = false ∧
    { mid 16 with written := { (mid 16).written with adLenBits := true } }.written.msgLenBits = false ∧
    ({ ready with key := upFrom 0x20 31 }.keyLen = 32#16 ∧ { ready with key := upFrom 0x20 31 }.key.length ≠ 32) ∧
    (ready.key.length = 32 ∧ { ready with nonce := upFrom 0x80 15 }.nonce.length ≠ 16) ∧
    (small.adBytes.toNat < 2 ^ 61 ∧ small.overlap = false ∧ small.written.tagIn = false) := by decide

theorem witness_HostReads :
    State.reset.phase ≠ .faulted ∧ State.reset.written.dout = false ∧ State.reset.written.tag = false ∧
    { mid 16 with written := { (mid 16).written with dout := true, tag := true } }.written.dout = true ∧
    State.reset.outLen ≤ (0#64).toNat ∧ HostReg.key ∉ [HostReg.phase, .err, .dout, .tag] ∧
    ((0#64).toNat < { small with out := [(0, 0x07)], outLen := 1 }.outLen ∧
      { small with out := [(0, 0x07)], outLen := 1 }.out.read 0 = some 0x07) ∧
    faulted.phase = .faulted := by decide

theorem witness_LaunchesWithoutMeaning :
    2 ^ 61 ≤ { ready with adBytes := 0x2000000000000000#64 }.adBytes.toNat ∧
    2 ^ 61 ≤ { ready with inBytes := 0x2000000000000000#64 }.inBytes.toNat ∧
    { ready with inBytes := 0x1FFFFFFFFFFFFFFF#64 }.inBytes.toNat < 2 ^ 61 ∧
    { ready with overlap := true }.overlap = true ∧
    { ready with host := [.actWhileRunning 0x80#8] }.host = [.actWhileRunning 0x80#8] := by decide

/-- Two different states that agree on what is held. -/
theorem witness_UnheldValuesNeverMatter :
    SameHeld State.reset { State.reset with S := SV, din := X, tag := X } ∧
    State.reset ≠ { State.reset with S := SV, din := X, tag := X } := by
  refine ⟨?_, fun h => ?_⟩
  · constructor <;> simp [State.reset, Written.none]
  · have h' := congrArg State.din h
    revert h'
    decide +kernel

theorem witness_TruncateKeepsFirstBits : 8 * [0xff#8].length < 9 ∧ 8 ≤ 8 * [0xff#8].length := by decide

/-- As for TRUNCATE. -/
theorem witness_TailTakesLastBits : 8 * [0xff#8].length < 9 ∧ 0 ≤ 8 * [0xff#8].length := by decide

theorem witness_PaddingLaws : 0 < 8 ∧ 8 % 8 = 0 ∧ 1 ≤ 15 ∧ 15 ≤ 15 := by decide

theorem witness_ComparatorReadsEverything : [0x01#8].length = [0x02#8].length ∧ [0x01#8].length ≠ ([] : List Byte).length := by
  decide

theorem witness_BlockAddressing :
    (Memory.writeBytes [] 0 (upFrom 0 17)).readBytes 0 17 = some (upFrom 0 17) ∧ 1 < (17 + 15) / 16 := by decide +kernel

theorem witness_StepKeepsTheInvariant : State.reset.Inv ∧ ∃ t, Sys2Proof.core.step State.reset = .next t := by
  refine ⟨?_, _, rfl⟩
  refine ⟨⟨.nil, fun _ h => (by cases h)⟩, ⟨.nil, fun _ h => (by cases h)⟩, ⟨.nil, fun _ h => (by cases h)⟩,
    Nat.le_refl _, Nat.le_refl _, Nat.zero_le _, ?_, ?_, ?_, fun _ h => (by cases h), ?_⟩ <;> simp [State.reset]

theorem witness_PrimitiveFrame : ∃ t, exec .enc (mid 16) = .next t ∧ t.phase ≠ .faulted :=
  ⟨_, rfl, fun h => (by cases h)⟩

theorem witness_MacroFrame : ∃ t, exec .encrypt small = .next t ∧ t.phase ≠ .faulted ∧
    blockAddr 0 + small.inBytes.toNat ≤ 5 := ⟨_, rfl, fun h => (by cases h), by decide⟩

/-- The last address of the space, and one byte past it. -/
theorem witness_HostLoads :
    (0xFFFFFFFFFFFFFFFF#64).toNat + [0x01#8].length ≤ 2 ^ 64 ∧
    2 ^ 64 < (0xFFFFFFFFFFFFFFFF#64).toNat + [0x01#8, 0x02#8].length := by decide

theorem witness_AssembledInitLoadsThePorts : (upFrom 0x20 32).length = 32 ∧ (upFrom 0x80 16).length = 16 := by decide

/-- A second instance that goes on, one that faults, one that is refused. -/
theorem witness_InstancesIndependent :
    (∃ (sys t u : System 2), (0 : Fin 2) ≠ 1 ∧ System.stepAt 0 sys = .next t ∧ System.stepAt 1 sys = .next u) ∧
    (∃ (sys t : System 2) (f : Fault), System.stepAt 0 sys = .next t ∧ System.stepAt 1 sys = .fault f) ∧
    (∃ (sys t : System 2) (r : Refusal), System.stepAt 0 sys = .next t ∧ System.stepAt 1 sys = .refused r) :=
  ⟨⟨#v[ready, small], _, _, by decide, rfl, rfl⟩,
    ⟨#v[ready, { small with host := [.read .key] }], _, _, rfl, rfl⟩,
    ⟨#v[ready, { small with host := [.read .tag] }], _, _, rfl, rfl⟩⟩

/-- `small` with one byte too many asked of `AD`, then of `IN`. -/
theorem witness_UnwrittenBufferBytesRefused :
    (small.KeyReady ∧ small.overlap = false ∧ small.adBytes.toNat < 2 ^ 61 ∧ small.inBytes.toNat < 2 ^ 61) ∧
    (1 < { small with adBytes := 2#64 }.adBytes.toNat ∧ { small with adBytes := 2#64 }.ad.read 1 = none) ∧
    (1 < { small with inBytes := 2#64 }.inBytes.toNat ∧ { small with inBytes := 2#64 }.inp.read 1 = none ∧
      ∀ a, a < small.adBytes.toNat → small.ad.read a ≠ none) := by
  refine ⟨⟨small_keyReady, by decide⟩, by decide, by decide, by decide, fun a h => ?_⟩
  have h1 : small.adBytes.toNat = 1 := rfl
  have h0 : a = 0 := by omega
  subst h0
  decide

theorem witness_ReadsHaveNoEffect :
    { small with host := [.read .phase] }.host = [.read .phase] ∧ hostRead .phase small = .next (.phase 0#3) ∧
    hostRead .key small = .fault (.noReadPath .key) ∧ hostRead .tag small = .refused (.unwrittenResult .tag) ∧
    hostReadOut 0#64 { small with out := [(0, 0x07)], outLen := 1 } = .next (.byte 0x07) ∧
    hostReadOut 0#64 small = .refused .unwrittenOut := ⟨rfl, rfl, rfl, rfl, rfl, rfl⟩

/-- Strings of the port's width and one byte past it. -/
theorem witness_PortWritesTakeTheValue :
    { ready with host := [.write (.din (upFrom 0 16))] }.host = [.write (.din (upFrom 0 16))] ∧
    (upFrom 0 32).length = ready.keyLen.toNat ∧ (upFrom 0 33).length ≠ ready.keyLen.toNat ∧
    (upFrom 0 16).length = ready.nonceLen.toNat ∧ (upFrom 0 17).length ≠ ready.nonceLen.toNat ∧
    (upFrom 0 16).length ≤ 16 ∧ 16 < (upFrom 0 17).length := by decide

end Sys2Proof.Tests
end

section
/-! PROOF. The state, the host's ports and the checks before a command (10_state.md, 60_exceptions.md R92): what a step
does with the host's next action, what each check stops, the key ports after a command, the head-index register. -/

namespace Sys2Proof.Machine

/-! ### The host's next action -/

/-- With no action of the host the engine holds its state. -/
theorem step_of_host_nil {s : State} (h : s.host = []) : step s = .next s := by simp only [step, nextAction, h]

/-- With an action of the host, a step is that action. -/
theorem step_of_host_cons {s : State} {a : HostAction} {rest : List HostAction} (h : s.host = a :: rest) :
    step s = hostAct a { s with host := rest } := by simp only [step, nextAction, h]

theorem hostLoad_fits {addr : BitVec 64} {x : List Byte} (h : addr.toNat + x.length ≤ 2 ^ 64) (m : Memory)
    (k : Memory → State) : hostLoad addr x m k = .next (k (m.writeBytes addr.toNat x)) := by
  simp only [hostLoad, h, if_true]

theorem hostLoad_past {addr : BitVec 64} {x : List Byte} (h : 2 ^ 64 < addr.toNat + x.length) (m : Memory)
    (k : Memory → State) : hostLoad addr x m k = .fault .noSuchAddress := by
  simp only [hostLoad, Nat.not_le.2 h, if_false]

/-- A load goes on only inside the address space, with the bytes stored. -/
theorem hostLoad_next {addr : BitVec 64} {x : List Byte} {m : Memory} {k : Memory → State} {t : State}
    (h : hostLoad addr x m k = .next t) :
    addr.toNat + x.length ≤ 2 ^ 64 ∧ t = k (m.writeBytes addr.toNat x) := by
  rcases Nat.lt_or_ge (2 ^ 64) (addr.toNat + x.length) with hx | hx
  · rw [hostLoad_past hx] at h; cases h
  · rw [hostLoad_fits hx] at h; cases h; exact ⟨hx, rfl⟩

/-- A read that goes on leaves the state. -/
theorem afterRead_next {r : ReadResult} {s t : State} (h : afterRead r s = .next t) : t = s := by
  cases r <;> cases h
  rfl

/-- `DIN` after a write of its first bytes: those, and the others as before (10_state.md R19). -/
theorem byteOf_overlayBytes (x : List Byte) (b : Block) {j : Nat} (hj : j < 16) :
    byteOf (overlayBytes x b) j = if j < x.length then x.getD j 0#8 else byteOf b j := by
  rw [overlayBytes, byteOf_ofBytes _ _ hj]
  split
  · next h => simp [List.getElem?_append_left h]
  · next h =>
    have hk : x.length + (j - x.length) = j := by omega
    simp [List.getElem?_append_right (Nat.not_lt.1 h), hk]

/-! ### Host reads -/

theorem resultPort_faulted {s : State} (h : s.phase = .faulted) (r : HostReg) (w : Bool) (b : Block) :
    resultPort r w b s = .refused .resultAfterViolation := by simp [resultPort, h]

theorem resultPort_written {s : State} (h : s.phase ≠ .faulted) (r : HostReg) {w : Bool} (hw : w = true) (b : Block) :
    resultPort r w b s = .next (.block b) := by simp [resultPort, h, hw]

theorem resultPort_unwritten {s : State} (h : s.phase ≠ .faulted) (r : HostReg) {w : Bool} (hw : w = false) (b : Block) :
    resultPort r w b s = .refused (.unwrittenResult r) := by simp [resultPort, h, hw]

theorem hostReadOut_faulted {s : State} (h : s.phase = .faulted) (a : BitVec 64) :
    hostReadOut a s = .refused .resultAfterViolation := by simp [hostReadOut, h]

theorem hostReadOut_beyond {s : State} (h : s.phase ≠ .faulted) {a : BitVec 64} (ha : s.outLen ≤ a.toNat) :
    hostReadOut a s = .refused .unwrittenOut := by simp [hostReadOut, h, ha]

theorem hostReadOut_written {s : State} (h : s.phase ≠ .faulted) {a : BitVec 64} (ha : a.toNat < s.outLen) {b : Byte}
    (hb : s.out.read a.toNat = some b) : hostReadOut a s = .next (.byte b) := by simp [hostReadOut, h, ha, hb]

/-! ### What a command checks before it works -/

theorem withPort_of_some {α : Type} {r : HostReg} {v : Option α} {x : α} (h : v = some x) (k : α → Result) :
    withPort r v k = k x := h ▸ rfl

theorem withPort_of_none {α : Type} {r : HostReg} {v : Option α} (h : v = none) (k : α → Result) :
    withPort r v k = .refused (.unwrittenOperand r) := h ▸ rfl

theorem tagInOperand_ready {s : State} (h : s.written.tagIn = true) : tagInOperand s = some s.tagIn := by
  simp [tagInOperand, h]

/-- With the right length registers, a byte of `KEY` without a value refuses the launch, and then one of `NONCE`. -/
theorem checkedKey_unwritten {s : State} (hk : s.keyLen = 32#16) (hn : s.nonceLen = 16#16)
    (k : List Byte → List Byte → Result) :
    let r := checkSizes s <| withPort .key (keyBytes s) fun key => withPort .nonce (nonceBytes s) fun nonce => k key nonce
    (s.key.length ≠ 32 → r = .refused (.unwrittenOperand .key)) ∧
    (s.key.length = 32 → s.nonce.length ≠ 16 → r = .refused (.unwrittenOperand .nonce)) := by
  refine ⟨fun h => ?_, fun hkey h => ?_⟩
  · rw [checkSizes_pos hk hn, withPort_of_none (by simp [keyBytes, hk, h])]
  · rw [checkSizes_pos hk hn, withPort_of_some (x := s.key) (by simp [keyBytes, hk, hkey]),
      withPort_of_none (by simp [nonceBytes, hn, h])]

/-- INIT and a macro-command that runs it, in a launch with meaning, begin with the size check and the two key reads. -/
theorem exec_checksTheKey {i : Instr} {s : State} (hi : i ∈ [.init, .encrypt, .decrypt, .mac, .stream])
    (hp : s.phase = .uninitialized)
    (hl : i ≠ .init → s.adBytes.toNat < 2 ^ 61 ∧ s.inBytes.toNat < 2 ^ 61 ∧ s.overlap = false)
    (h0 : i = .stream → s.inBytes ≠ 0#64) :
    ∃ k : List Byte → List Byte → Result, exec i s =
      (checkSizes s <| withPort .key (keyBytes s) fun key => withPort .nonce (nonceBytes s) fun nonce =>
        k key nonce) := by
  have hph : s.phase.allows i = true := by
    fin_cases hi <;> simp [Phase.allows, hp]
  rw [exec_eq_execWith]
  by_cases hinit : i = .init
  · subst hinit
    exact ⟨_, checkPhase_pos hph _⟩
  · obtain ⟨ha, hn, ho⟩ := hl hinit
    fin_cases hi
    · exact absurd rfl hinit
    · exact ⟨_, (checkPhase_pos hph _).trans (checkLaunch_pos ha hn ho _)⟩
    · exact ⟨_, (checkPhase_pos hph _).trans (checkLaunch_pos ha hn ho _)⟩
    · exact ⟨_, (checkPhase_pos hph _).trans (checkLaunch_pos ha hn ho _)⟩
    · exact ⟨_, (checkPhase_pos hph _).trans ((checkLaunch_pos ha hn ho _).trans (if_neg (h0 rfl)))⟩

/-- Past the ports, ENCRYPT, DECRYPT and MAC read the whole of `AD`, and the first two then the whole of `IN`. -/
theorem exec_readsTheBuffers {i : Instr} {s : State} (hi : i ∈ [.encrypt, .decrypt, .mac])
    (hp : s.phase = .uninitialized) (hk : s.KeyReady) (ha : s.adBytes.toNat < 2 ^ 61)
    (hn : s.inBytes.toNat < 2 ^ 61) (ho : s.overlap = false) (ht : i = .decrypt → s.written.tagIn = true) :
    ∃ k, exec i s = withBuffer .ad s.ad s.adBytes k ∧
      (i ≠ .mac → ∀ ad, ∃ k', k ad = withBuffer .inp s.inp s.inBytes k') := by
  have hph : s.phase.allows i = true := by
    fin_cases hi <;> simp [Phase.allows, hp]
  have launched : ∀ k, checkPhase i s (checkLaunch s k) = k := fun k =>
    (checkPhase_pos hph _).trans (checkLaunch_pos ha hn ho k)
  rw [exec_eq_execWith]
  fin_cases hi
  · exact ⟨_, (launched _).trans (checkedKey_ready hk _), fun _ _ => ⟨_, rfl⟩⟩
  · exact ⟨_, (launched _).trans ((checkedKey_ready hk _).trans (withPort_of_some (tagInOperand_ready (ht rfl)) _)),
      fun _ _ => ⟨_, rfl⟩⟩
  · exact ⟨_, (launched _).trans (checkedKey_ready hk _), fun h => absurd rfl h⟩

/-- A range with an unwritten byte is not read. -/
theorem Memory.readBytes_eq_none {m : Memory} {n a : Nat} (ha : a < n) (h : m.read a = none) :
    m.readBytes 0 n = none := by
  by_contra hx
  have := (m.readBytes_isSome 0 n).1 (Option.isSome_iff_ne_none.2 hx) a ha
  rw [Nat.zero_add, h] at this
  cases this

/-- A range whose bytes are all written is read. -/
theorem Memory.exists_readBytes {m : Memory} {n : Nat} (h : ∀ a < n, m.read a ≠ none) :
    ∃ x, m.readBytes 0 n = some x :=
  Option.isSome_iff_exists.1 <| (m.readBytes_isSome 0 n).2 fun i hi => by
    rw [Nat.zero_add]; exact Option.isSome_iff_ne_none.2 (h i hi)

/-! ### The key ports after a command -/

/-- How INIT, or a macro-command that runs it, leaves the key ports: cleared after its work; as they were in the other
ways to end, STREAM of no bytes, InvalidSize and ContractViolation. -/
theorem exec_keyPorts {i : Instr} {s t : State} (hi : i ∈ [.init, .encrypt, .decrypt, .mac, .stream])
    (h : exec i s = .next t) :
    (t.keyLen = 0#16 ∧ t.key = [] ∧ t.nonceLen = 0#16 ∧ t.nonce = [] ∧ t.err ≠ .invalidSize) ∨
    (i = .stream ∧ s.inBytes = 0#64 ∧ t.err = .ok) ∨
    t = takeException .invalidSize s ∨ t = takeException .contract s := by
  rw [exec_eq_execWith] at h
  fin_cases hi
  · rcases cmdInit_next h with ⟨-, -, rfl⟩ | ⟨-, -, rfl⟩ | ⟨-, rfl⟩
    · exact .inl ⟨rfl, rfl, rfl, rfl, Err.noConfusion⟩
    · exact .inr (.inr (.inl rfl))
    · exact .inr (.inr (.inr rfl))
  · rcases cmdEncrypt_next h with ⟨-, -, -, -, -, _, _, -, -, rfl⟩ | ⟨-, -, rfl⟩ | ⟨-, rfl⟩
    · exact .inl ⟨rfl, rfl, rfl, rfl, Err.noConfusion⟩
    · exact .inr (.inr (.inl rfl))
    · exact .inr (.inr (.inr rfl))
  · rcases cmdDecrypt_next h with ⟨-, -, -, -, -, -, _, _, -, -, ⟨-, rfl⟩ | ⟨-, rfl⟩⟩ | ⟨-, -, rfl⟩ | ⟨-, rfl⟩
    · exact .inl ⟨rfl, rfl, rfl, rfl, Err.noConfusion⟩
    · exact .inl ⟨rfl, rfl, rfl, rfl, Err.noConfusion⟩
    · exact .inr (.inr (.inl rfl))
    · exact .inr (.inr (.inr rfl))
  · rcases cmdMac_next h with ⟨-, -, -, -, -, _, -, rfl⟩ | ⟨-, -, rfl⟩ | ⟨-, rfl⟩
    · exact .inl ⟨rfl, rfl, rfl, rfl, Err.noConfusion⟩
    · exact .inr (.inr (.inl rfl))
    · exact .inr (.inr (.inr rfl))
  · rcases cmdStream_next h with ⟨-, -, -, h0, rfl⟩ | ⟨-, -, -, -, -, -, rfl⟩ | ⟨-, -, -, rfl⟩ | ⟨-, rfl⟩
    · exact .inr (.inl ⟨rfl, h0, rfl⟩)
    · exact .inl ⟨rfl, rfl, rfl, rfl, Err.noConfusion⟩
    · exact .inr (.inr (.inl rfl))
    · exact .inr (.inr (.inr rfl))

/-! ### The head-index register (10_state.md R13) -/

/-- A logical slot is read at its place. -/
theorem HeadReg.logical_getElem (h : HeadReg) (k : BitVec 4) : h.logical[k.toNat] = h.get k := by
  simp [HeadReg.logical]

/-- A register whose slots are those of `h`, read by slot number, is `h` in logical order. -/
theorem HeadReg.logical_eq_of_get {h : HeadReg} {S : StateReg} (e : ∀ k : BitVec 4, h.get k = S[k.toNat]) :
    h.logical = S :=
  Vector.ext fun i hi => (h.logical_getElem (.ofFin ⟨i, hi⟩)).trans (e _)

/-- Different logical slots have different places. -/
theorem HeadReg.place_inj (h : HeadReg) {k l : BitVec 4} : (h.place k).val = (h.place l).val ↔ k = l := by
  rw [← BitVec.add_right_inj h.head, BitVec.toNat_eq]
  rfl

/-- A logical slot after a write: the value written, or as before. -/
theorem HeadReg.get_put (h : HeadReg) (k l : BitVec 4) (b : Block) :
    (h.put k b).get l = if k = l then b else h.get l := by
  simp only [← h.place_inj]
  exact Vector.getElem_set (h.place k).isLt (h.place l).isLt

/-- A write of one logical slot changes that slot of the logical register. -/
theorem HeadReg.logical_put (h : HeadReg) (k : BitVec 4) (b : Block) :
    (h.put k b).logical = h.logical.set k.toNat b :=
  HeadReg.logical_eq_of_get fun l => by
    simp only [Vector.getElem_set, h.logical_getElem, h.get_put, BitVec.toNat_eq]

/-- Moving the head is ROL of the logical register. -/
theorem HeadReg.logical_rol (h : HeadReg) : h.rol.logical = Machine.rol h.logical :=
  HeadReg.logical_eq_of_get fun k => by
    have hk : (1#4 + k).toNat = (k.toNat + 1) % 16 := by rw [BitVec.toNat_add, Nat.add_comm]; rfl
    have hplace : h.rol.place k = h.place (1#4 + k) := congrArg BitVec.toFin (BitVec.add_assoc h.head 1#4 k)
    simp only [rol_getElem, ← hk, h.logical_getElem]
    simp only [HeadReg.get, hplace]
    rfl

/-- UPDATE on the head-index register is UPDATE on the logical register, and returns the same Block. -/
theorem HeadReg.logical_update (p : Params) (x : Block) (h : HeadReg) :
    (h.update p x).1.logical = (updateReg p x h.logical).1 ∧ (h.update p x).2 = (updateReg p x h.logical).2 := by
  have slot := h.logical_getElem
  simp only [HeadReg.update, updateReg, HeadReg.logical_rol, HeadReg.logical_put, ← slot]
  exact ⟨rfl, rfl⟩

/-! ### The statements settled by these laws alone -/

/-- Settles O35, by the four ways such a command can end. -/
theorem keyPortsCleared : Obligations.KeyPortsCleared := by
  intro i s t hi h
  rcases exec_keyPorts hi h with ⟨hkl, hk, hnl, hn, herr⟩ | ⟨hs, h0, herr⟩ | rfl | rfl
  · exact ⟨fun _ _ => ⟨hkl, hk, hnl, hn⟩, fun he => absurd he herr⟩
  · exact ⟨fun _ hne => absurd h0 (hne hs), fun he => by rw [herr] at he; cases he⟩
  · exact ⟨fun he => by simp at he, fun _ => ⟨rfl, rfl, rfl, rfl⟩⟩
  · exact ⟨fun he => by simp at he, fun he => by simp at he⟩

/-- Settles O52: a logical slot is a place, so UPDATE slot by slot is UPDATE of the logical register. -/
theorem headIndexRefines : Obligations.HeadIndexRefines := fun p x h =>
  ⟨(h.logical_update p x).1, (h.logical_update p x).2, rfl⟩

/-- Settles O54: past the checks and the ports the command reads `AD`, then `IN`, and stops at the first without a value. -/
theorem unwrittenBufferBytesRefused : Obligations.UnwrittenBufferBytesRefused := by
  intro i s hi hp hk ha hn ho ht
  obtain ⟨k, hexec, hinp⟩ := exec_readsTheBuffers hi hp hk ha hn ho ht
  rw [hexec]
  refine ⟨fun ⟨a, hlt, hnone⟩ => withBuffer_none (Memory.readBytes_eq_none hlt hnone) k, ?_⟩
  intro hall hmac ⟨a, hlt, hnone⟩
  obtain ⟨ad, had⟩ := Memory.exists_readBytes hall
  obtain ⟨k', hk'⟩ := hinp hmac ad
  rw [withBuffer_some had, hk', withBuffer_none (Memory.readBytes_eq_none hlt hnone)]

/-- Settles O6: the fields of `State.reset`. -/
theorem resetValues : Obligations.ResetValues :=
  ⟨rfl, rfl, rfl, rfl, rfl, rfl, rfl, rfl, rfl, rfl, rfl, rfl, rfl, rfl, rfl, rfl⟩

/-- Settles O36: each command's first read of a port without a value is the refusal that names it. -/
theorem unwrittenOperandsRefused : Obligations.UnwrittenOperandsRefused := by
  refine ⟨fun i s hi hp hd => ?_, fun n s hn hp hd => ?_, fun s hp had => ?_, fun s hp had hmsg => ?_,
    fun i s hi hp hl h0 hk hn => ?_, fun s hp hk ha hn ho ht => ?_⟩
  · have hdin : dinBlock s = none := by simp [dinBlock, hd]
    fin_cases hi
    · exact (checkPhase_pos (i := .absorb) (takesData_iff.2 hp) _).trans (withPort_of_none hdin _)
    · exact (checkPhase_pos (i := .enc) (takesData_iff.2 hp) _).trans (withPort_of_none hdin _)
    · exact (checkPhase_pos (i := .dec) (takesData_iff.2 hp) _).trans (withPort_of_none hdin _)
  · have hdin : dinBytes n.toNat s = none := by simp [dinBytes, hd]
    exact (if_neg hn).trans ((checkPhase_pos (i := .decp n) (takesData_iff.2 hp) _).trans (withPort_of_none hdin _))
  · have hlen : adLenOperand s = none := by simp [adLenOperand, had]
    exact (checkPhase_pos (i := .final) (takesData_iff.2 hp) _).trans (withPort_of_none hlen _)
  · have hlen : adLenOperand s = some s.adLenBits := by simp [adLenOperand, had]
    have hnone : msgLenOperand s = none := by simp [msgLenOperand, hmsg]
    exact (checkPhase_pos (i := .final) (takesData_iff.2 hp) _).trans
      ((withPort_of_some hlen _).trans (withPort_of_none hnone _))
  · obtain ⟨k, hexec⟩ := exec_checksTheKey hi hp hl h0
    rw [hexec]
    exact checkedKey_unwritten hk hn k
  · have hph : s.phase.allows .decrypt = true := by simp [Phase.allows, hp]
    have htag : tagInOperand s = none := by simp [tagInOperand, ht]
    exact (checkPhase_pos hph _).trans ((checkLaunch_pos ha hn ho _).trans
      ((checkedKey_ready hk _).trans (withPort_of_none htag _)))

/-- Settles O37: each port's read by its own rule. -/
theorem hostReads : Obligations.HostReads := by
  intro s
  refine ⟨rfl, rfl, fun hp hw => resultPort_unwritten hp _ hw _, fun hp hw => resultPort_written hp _ hw _,
    fun hp hw => resultPort_unwritten hp _ hw _, fun hp hw => resultPort_written hp _ hw _,
    fun a hp ha => hostReadOut_beyond hp ha, fun a b hp ha hb => hostReadOut_written hp ha hb,
    fun hp => ⟨resultPort_faulted hp .., resultPort_faulted hp .., hostReadOut_faulted hp⟩, fun r hr => ?_⟩
  cases r with
  | phase | err | dout | tag => simp at hr
  | _ => rfl

/-- Settles O50: a load inside the address space stores its bytes, and one past it stops. -/
theorem hostLoads : Obligations.HostLoads := by
  intro s addr x rest
  have readBack (m : Memory) : (m.writeBytes addr.toNat x).readBytes addr.toNat x.length = some x ∧
      ∀ a, a < addr.toNat ∨ addr.toNat + x.length ≤ a → (m.writeBytes addr.toNat x).read a = m.read a :=
    ⟨m.readBytes_writeBytes _ x, fun a ha => m.read_writeBytes_outside x _ a (by omega)⟩
  refine ⟨fun h hx => ?_, fun h hx => ?_, fun h hx => ?_⟩
  · refine ⟨{ s with ad := s.ad.writeBytes addr.toNat x, host := rest }, ?_, rfl, readBack s.ad⟩
    rw [step_of_host_cons h, hostAct, hostLoad_fits hx]
  · refine ⟨{ s with inp := s.inp.writeBytes addr.toNat x, host := rest }, ?_, rfl, readBack s.inp⟩
    rw [step_of_host_cons h, hostAct, hostLoad_fits hx]
  · rcases h with h | h
    · rw [step_of_host_cons h, hostAct, hostLoad_past hx]
    · rw [step_of_host_cons h, hostAct, hostLoad_past hx]

/-- Settles O56: one port at a time, by the rule of its write. -/
theorem portWritesTakeTheValue : Obligations.PortWritesTakeTheValue := by
  intro s rest n q b x
  refine ⟨step_of_host_cons, fun h => ⟨fun hx => ?_, fun hx => ?_⟩, step_of_host_cons,
    fun h => ⟨fun hx => ?_, fun hx => ?_⟩, fun h => ⟨fun hx => ⟨overlayBytes x s.din, ?_, ?_⟩, fun hx => ?_⟩,
    step_of_host_cons, step_of_host_cons, step_of_host_cons, step_of_host_cons, step_of_host_cons⟩
  · exact (step_of_host_cons h).trans (if_pos hx)
  · exact (step_of_host_cons h).trans (if_neg hx)
  · exact (step_of_host_cons h).trans (if_pos hx)
  · exact (step_of_host_cons h).trans (if_neg hx)
  · exact fun j hj => byteOf_overlayBytes x s.din hj
  · exact (step_of_host_cons h).trans (if_pos hx)
  · exact (step_of_host_cons h).trans (if_neg (Nat.not_le.2 hx))

end Sys2Proof.Machine
end

section
/-! PROOF. Every step keeps the invariant (10_state.md R15 to R26, 60_exceptions.md R82 to R84): reset meets it, each
update of the state keeps it, and so does each command and each action of the host. -/

namespace Sys2Proof.Machine

/-! ### Each update of the state -/

/-- The invariant does not speak of `S`. -/
theorem State.Inv.setS {s : State} {S : StateReg} (h : s.Inv) : State.Inv { s with S := S } := { h with }

/-- The invariant does not speak of the host's next actions. -/
theorem State.Inv.setHost {s : State} {rest : List HostAction} (h : s.Inv) : State.Inv { s with host := rest } :=
  { h with }

/-- Nothing of `OUT` may hold a value for the host. -/
theorem State.Inv.clearOutLen {s : State} (h : s.Inv) : State.Inv { s with outLen := 0 } :=
  { h with
    out_written := fun _ ha => absurd ha (Nat.not_lt_zero _)
    faulted_results := fun hp => ⟨(h.faulted_results hp).1, (h.faulted_results hp).2.1, rfl⟩ }

theorem State.Inv.clearKeyPorts {s : State} (h : s.Inv) : (clearKeyPorts s).Inv :=
  { h with key_width := Nat.le_refl 0, nonce_width := Nat.le_refl 0 }

theorem State.Inv.putDout {s : State} {b : Block} (h : s.Inv) (hp : s.phase ≠ .faulted) : (putDout b s).Inv :=
  { h with faulted_results := fun hf => absurd hf hp }

theorem State.Inv.putTag {s : State} {b : Block} (h : s.Inv) (hp : s.phase ≠ .faulted) : (putTag b s).Inv :=
  { h with faulted_results := fun hf => absurd hf hp }

theorem State.Inv.putOut {s : State} {x : List Byte} (h : s.Inv) (hp : s.phase ≠ .faulted) (hx : x.length ≤ 2 ^ 64) :
    (putOut x s).Inv :=
  { h with
    out_wf := Memory.wf_writeBytes x h.out_wf (by omega)
    out_written := fun a ha => by
      have hx : a < x.length := ha
      simp [Memory.read_writeBytes, hx]
    faulted_results := fun hf => absurd hf hp }

theorem nextPhase_ne_faulted (i : Instr) (s : State) : nextPhase i s ≠ .faulted := by
  unfold nextPhase
  split
  case h_10 => split <;> exact Phase.noConfusion
  all_goals exact Phase.noConfusion

/-- A command that completes leaves OK and no phase with a condition. -/
theorem State.Inv.complete {s : State} {i : Instr} (h : s.Inv) : (complete i s).Inv :=
  { h with
    faulted_iff := ⟨fun hf => absurd hf (nextPhase_ne_faulted i s), Err.noConfusion⟩
    invalidSize_phase := Err.noConfusion
    authFail_phase := Err.noConfusion
    faulted_results := fun hf => absurd hf (nextPhase_ne_faulted i s) }

theorem State.Inv.invalidSize {s : State} (h : s.Inv) (hp : s.phase = .uninitialized) :
    (takeException .invalidSize s).Inv :=
  { h with
    faulted_iff := ⟨fun hf => absurd (hp.symm.trans hf) Phase.noConfusion, Err.noConfusion⟩
    invalidSize_phase := fun _ => hp
    authFail_phase := Err.noConfusion }

theorem State.Inv.authFail {s : State} (h : s.Inv) : (takeException .authFail s).Inv :=
  { h with
    out_wf := Memory.wf_writeBytes _ h.out_wf (by rw [List.length_replicate]; omega)
    faulted_iff := ⟨Phase.noConfusion, Err.noConfusion⟩
    invalidSize_phase := Err.noConfusion
    authFail_phase := fun _ => rfl
    out_written := fun a ha => by
      rw [authFail_out, Memory.read_writeBytes]
      split
      · next hr => simpa using hr
      · exact h.out_written a ha
    faulted_results := Phase.noConfusion }

theorem State.Inv.contract {s : State} (h : s.Inv) : (takeException .contract s).Inv where
  ad_wf := by rw [contract_ad]; exact h.ad_wf
  inp_wf := by rw [contract_inp]; exact h.inp_wf
  out_wf := by rw [contract_out]; exact anyBytes_wf h.out_wf s.draws
  key_width := by rw [contract_key, contract_keyLen]; exact h.key_width
  nonce_width := by rw [contract_nonce, contract_nonceLen]; exact h.nonce_width
  din_width := by rw [contract_written]; exact h.din_width
  faulted_iff := by simp
  invalidSize_phase := by simp
  authFail_phase := by simp
  out_written := by simp
  faulted_results := by simp

/-- The empty buffer is in canonical form. -/
theorem Memory.wf_nil : Memory.wf [] := ⟨.nil, fun _ h => nomatch h⟩

theorem State.inv_reset : State.reset.Inv where
  ad_wf := Memory.wf_nil
  inp_wf := Memory.wf_nil
  out_wf := Memory.wf_nil
  key_width := Nat.le_refl 0
  nonce_width := Nat.le_refl 0
  din_width := Nat.zero_le 16
  faulted_iff := ⟨Phase.noConfusion, Err.noConfusion⟩
  invalidSize_phase := Err.noConfusion
  authFail_phase := Err.noConfusion
  out_written := fun _ ha => absurd ha (Nat.not_lt_zero _)
  faulted_results := Phase.noConfusion

/-- The reset event gives the reset values and keeps the buffers. -/
theorem State.Inv.resetEvent {s : State} (h : s.Inv) : (resetEvent s).Inv :=
  { State.inv_reset with
    ad_wf := h.ad_wf, inp_wf := h.inp_wf, out_wf := h.out_wf, out_written := h.out_written
    faulted_results := Phase.noConfusion }

/-! ### Commands and host actions -/

/-- DECRYPT's work before it completes, where completing sets the phase. -/
theorem complete_decryptWork (r : ModeResult) (s : State) :
    complete .decrypt (decryptWork r s) = complete .decrypt (clearKeyPorts (putOut r.text { s with S := r.cipher.S })) :=
  rfl

/-- DECRYPT's work before it fails, where the exception sets the phase. -/
theorem authFail_decryptWork (r : ModeResult) (s : State) :
    takeException .authFail (decryptWork r s) =
      takeException .authFail (clearKeyPorts (putOut r.text { s with S := r.cipher.S })) := rfl

theorem phase_ne_faulted_of_takesData {ph : Phase} (h : ph.takesData = true) : ph ≠ .faulted := by
  rintro rfl
  cases h

/-- Every command keeps the invariant. -/
theorem exec_inv {i : Instr} {s t : State} (hs : s.Inv) (h : exec i s = .next t) : t.Inv := by
  have unf : s.phase = .uninitialized → s.phase ≠ .faulted := fun hp hf => by rw [hp] at hf; cases hf
  have fits : ∀ {x : List Byte} {len : BitVec 64}, x.length = len.toNat → x.length ≤ 2 ^ 64 := fun e => by omega
  rw [exec_eq_execWith] at h
  cases i with
  | init =>
    rcases cmdInit_next h with ⟨-, -, rfl⟩ | ⟨hp, -, rfl⟩ | ⟨-, rfl⟩
    · exact .complete (.clearKeyPorts (.setS hs))
    · exact hs.invalidSize hp
    · exact hs.contract
  | absorb =>
    rcases cmdAbsorb_next h with ⟨-, -, rfl⟩ | ⟨-, rfl⟩
    · exact .complete (.setS hs)
    · exact hs.contract
  | enc =>
    rcases cmdEnc_next h with ⟨hp, -, rfl⟩ | ⟨-, rfl⟩
    · exact .complete (.putDout (.setS hs) (phase_ne_faulted_of_takesData hp))
    · exact hs.contract
  | dec =>
    rcases cmdDec_next h with ⟨hp, -, rfl⟩ | ⟨-, rfl⟩
    · exact .complete (.putDout (.setS hs) (phase_ne_faulted_of_takesData hp))
    · exact hs.contract
  | decp n =>
    rcases cmdDecp_next h with ⟨-, hp, -, rfl⟩ | ⟨-, rfl⟩
    · exact .complete (.putDout (.setS hs) (phase_ne_faulted_of_takesData hp))
    · exact hs.contract
  | final =>
    rcases cmdFinal_next h with ⟨hp, -, -, rfl⟩ | ⟨-, rfl⟩
    · exact .complete (.putTag (.setS hs) (phase_ne_faulted_of_takesData hp))
    · exact hs.contract
  | encrypt =>
    rcases cmdEncrypt_next h with ⟨hp, -, -, -, -, ad, msg, -, hmsg, rfl⟩ | ⟨hp, -, rfl⟩ | ⟨-, rfl⟩
    · have hx := (encryptBytes_text_length Config.params s.key s.nonce ad msg).trans (Memory.readBytes_length hmsg)
      exact .complete (.clearKeyPorts (.putTag (.putOut (.setS hs) (unf hp) (fits hx)) (unf hp)))
    · exact hs.invalidSize hp
    · exact hs.contract
  | decrypt =>
    rcases cmdDecrypt_next h with ⟨hp, -, -, -, -, -, ad, ct, -, hct, hend⟩ | ⟨hp, -, rfl⟩ | ⟨-, rfl⟩
    · have hx := (decryptBytes_text_length Config.params s.key s.nonce ad ct).trans (Memory.readBytes_length hct)
      rcases hend with ⟨-, rfl⟩ | ⟨-, rfl⟩
      · rw [complete_decryptWork]
        exact .complete (.clearKeyPorts (.putOut (.setS hs) (unf hp) (fits hx)))
      · rw [authFail_decryptWork]
        exact .authFail (.clearKeyPorts (.putOut (.setS hs) (unf hp) (fits hx)))
    · exact hs.invalidSize hp
    · exact hs.contract
  | mac =>
    rcases cmdMac_next h with ⟨hp, -, -, -, -, data, -, rfl⟩ | ⟨hp, -, rfl⟩ | ⟨-, rfl⟩
    · exact .complete (.clearKeyPorts (.putTag (.clearOutLen (.setS hs)) (unf hp)))
    · exact hs.invalidSize hp
    · exact hs.contract
  | stream =>
    rcases cmdStream_next h with ⟨-, -, -, -, rfl⟩ | ⟨hp, -, -, -, -, -, rfl⟩ | ⟨hp, -, -, rfl⟩ | ⟨-, rfl⟩
    · exact .complete (.clearOutLen hs)
    · have hx := streamBytes_text_length Config.params s.key s.nonce s.inBytes.toNat
      exact .complete (.clearKeyPorts (.putOut (.setS hs) (unf hp) (fits hx)))
    · exact hs.invalidSize hp
    · exact hs.contract

/-- A write of a port keeps the invariant: the widths are checked before it. -/
theorem portWrite_inv {w : PortWrite} {s t : State} (hs : s.Inv) (h : portWrite w s = .next t) : t.Inv := by
  cases w with
  | keyLen v => cases h; exact { hs with key_width := List.length_take_le _ _ }
  | nonceLen v => cases h; exact { hs with nonce_width := List.length_take_le _ _ }
  | key x =>
    rw [portWrite] at h
    split at h
    · next hx => cases h; exact { hs with key_width := hx.le }
    · cases h
  | nonce x =>
    rw [portWrite] at h
    split at h
    · next hx => cases h; exact { hs with nonce_width := hx.le }
    · cases h
  | din x =>
    rw [portWrite] at h
    split at h
    · next hx => cases h; exact { hs with din_width := max_le hs.din_width hx }
    · cases h
  | adLenBits v | msgLenBits v | tagIn v | adBytes v | inBytes v => cases h; exact { hs with }

/-- Every action of the host keeps the invariant. -/
theorem hostAct_inv {a : HostAction} {s t : State} (hs : s.Inv) (h : hostAct a s = .next t) : t.Inv := by
  cases a with
  | write w => exact portWrite_inv hs h
  | loadAd addr x =>
    rw [hostAct] at h
    obtain ⟨hx, rfl⟩ := hostLoad_next h
    exact { hs with ad_wf := Memory.wf_writeBytes x hs.ad_wf hx }
  | loadIn addr x =>
    rw [hostAct] at h
    obtain ⟨hx, rfl⟩ := hostLoad_next h
    exact { hs with inp_wf := Memory.wf_writeBytes x hs.inp_wf hx }
  | placeBuffers v => cases h; exact { hs with }
  | command w =>
    rw [hostAct, issue] at h
    split at h
    · exact exec_inv hs h
    · exact Host.Outcome.next.inj h ▸ hs.contract
  | read r => exact afterRead_next h ▸ hs
  | readOut addr => exact afterRead_next h ▸ hs
  | reset => cases h; exact hs.resetEvent
  | actWhileRunning w => cases h

/-- Settles O46: no buffer has a byte, no port a value. -/
theorem resetMeetsTheInvariant : Obligations.ResetMeetsTheInvariant := State.inv_reset

/-- Settles O47: a step holds the state, or is one action of the host, a command among them. -/
theorem stepKeepsTheInvariant : Obligations.StepKeepsTheInvariant := by
  intro s t hs h
  change step s = .next t at h
  cases hh : s.host with
  | nil => rw [step_of_host_nil hh] at h; cases h; exact hs
  | cons a rest => rw [step_of_host_cons hh] at h; exact hostAct_inv (hs.setHost) h

end Sys2Proof.Machine
end

section
/-! PROOF. What nothing has written never matters (10_state.md R25, R26): each update of the state keeps two states in
agreement on what is held, each check and each operand is the same in both, and so is each command and each action. -/

namespace Sys2Proof.Machine

/-! ### Each update of two states that agree on what is held -/

/-- Once both have the same `S`, they agree on it in every phase. -/
theorem SameHeld.setS {s t : State} {S : StateReg} (h : SameHeld s t) :
    SameHeld { s with S := S } { t with S := S } := { h with S := fun _ => rfl }

theorem SameHeld.setHost {s t : State} {rest : List HostAction} (h : SameHeld s t) :
    SameHeld { s with host := rest } { t with host := rest } := { h with host := rfl }

theorem SameHeld.setAd {s t : State} {m : Memory} (h : SameHeld s t) : SameHeld { s with ad := m } { t with ad := m } :=
  { h with ad := rfl }

theorem SameHeld.setInp {s t : State} {m : Memory} (h : SameHeld s t) :
    SameHeld { s with inp := m } { t with inp := m } := { h with inp := rfl }

theorem SameHeld.clearOutLen {s t : State} (h : SameHeld s t) :
    SameHeld { s with outLen := 0 } { t with outLen := 0 } := { h with outLen := rfl }

theorem SameHeld.clearKeyPorts {s t : State} (h : SameHeld s t) : SameHeld (clearKeyPorts s) (clearKeyPorts t) :=
  { h with keyLen := rfl, key := rfl, nonceLen := rfl, nonce := rfl }

theorem SameHeld.putDout {s t : State} {b : Block} (h : SameHeld s t) : SameHeld (putDout b s) (putDout b t) :=
  { h with dout := fun _ => rfl, written := congrArg (fun w : Written => { w with dout := true }) h.written }

theorem SameHeld.putTag {s t : State} {b : Block} (h : SameHeld s t) : SameHeld (putTag b s) (putTag b t) :=
  { h with tag := fun _ => rfl, written := congrArg (fun w : Written => { w with tag := true }) h.written }

theorem SameHeld.putOut {s t : State} {x : List Byte} (h : SameHeld s t) : SameHeld (putOut x s) (putOut x t) :=
  { h with out := congrArg (Memory.writeBytes · 0 x) h.out, outLen := rfl }

theorem SameHeld.nextPhase {s t : State} (h : SameHeld s t) (i : Instr) : nextPhase i s = nextPhase i t := by
  cases i with
  | stream => simp only [Machine.nextPhase, h.inBytes]
  | _ => rfl

/-- A command that completes: it leaves Uninitialized only with an `S` that it has computed. -/
theorem SameHeld.complete {s t : State} {i : Instr} (h : SameHeld s t)
    (hS : Machine.nextPhase i s ≠ .uninitialized → s.S = t.S) : SameHeld (complete i s) (complete i t) :=
  { h with S := hS, phase := h.nextPhase i, err := rfl }

theorem SameHeld.invalidSize {s t : State} (h : SameHeld s t) :
    SameHeld (takeException .invalidSize s) (takeException .invalidSize t) := { h with err := rfl }

theorem SameHeld.authFail {s t : State} (h : SameHeld s t) (hS : s.S = t.S) :
    SameHeld (takeException .authFail s) (takeException .authFail t) :=
  { h with
    S := fun _ => hS, phase := rfl, err := rfl
    out := by simp only [authFail_out, h.out, h.inBytes] }

/-- The free values after ContractViolation are those of one draw (log 32). -/
theorem SameHeld.contract {s t : State} (h : SameHeld s t) :
    SameHeld (takeException .contract s) (takeException .contract t) where
  S := by simp [h.draws]
  phase := rfl
  err := rfl
  keyLen := by simp [h.keyLen]
  key := by simp [h.key]
  nonceLen := by simp [h.nonceLen]
  nonce := by simp [h.nonce]
  din := by simpa using h.din
  dout := by simp
  adLenBits := by simpa using h.adLenBits
  msgLenBits := by simpa using h.msgLenBits
  tag := by simp
  tagIn := by simpa using h.tagIn
  adBytes := by simp [h.adBytes]
  inBytes := by simp [h.inBytes]
  written := by simp [h.written]
  ad := by simp [h.ad]
  inp := by simp [h.inp]
  out := by simp [h.out, h.draws]
  outLen := rfl
  overlap := by simp [h.overlap]
  host := by simp [h.host]
  draws := by simp [h.draws]

theorem SameHeld.refl (s : State) : SameHeld s s := by constructor <;> intros <;> rfl

/-- The reset event makes every register the same. -/
theorem SameHeld.resetEvent {s t : State} (h : SameHeld s t) : SameHeld (resetEvent s) (resetEvent t) :=
  { SameHeld.refl State.reset with
    ad := h.ad, inp := h.inp, out := h.out, outLen := h.outLen, overlap := h.overlap, host := h.host, draws := h.draws }

/-! ### Checks and operands -/

theorem SameOutcome.refused (f : Refusal) : SameOutcome (.refused f) (.refused f) := rfl

theorem SameOutcome.fault (f : Fault) : SameOutcome (.fault f) (.fault f) := rfl

section Checks

variable {s t : State} {j k : Result}

/-- Two choices by the same condition, alike in both branches. -/
theorem SameOutcome.ite {P Q : Prop} [Decidable P] [Decidable Q] {j' k' : Result} (hPQ : P ↔ Q)
    (hpos : P → SameOutcome j k) (hneg : SameOutcome j' k') :
    SameOutcome (if P then j else j') (if Q then k else k') := by
  by_cases hP : P
  · rw [if_pos hP, if_pos (hPQ.1 hP)]; exact hpos hP
  · rwa [if_neg hP, if_neg (fun hQ => hP (hPQ.2 hQ))]

theorem SameHeld.checkPhase {i : Instr} (h : SameHeld s t) (hk : s.phase.allows i = true → SameOutcome j k) :
    SameOutcome (checkPhase i s j) (checkPhase i t k) := by
  cases hp : s.phase.allows i with
  | true => rw [checkPhase_pos hp, checkPhase_pos (h.phase ▸ hp)]; exact hk hp
  | false => rw [checkPhase_neg hp, checkPhase_neg (h.phase ▸ hp)]; exact h.contract

theorem SameHeld.checkSizes (h : SameHeld s t) (hk : SameOutcome j k) :
    SameOutcome (checkSizes s j) (checkSizes t k) := .ite (by rw [h.keyLen, h.nonceLen]) (fun _ => hk) h.invalidSize

theorem SameOutcome.checkLength {a b : BitVec 64} (hl : a = b) (hk : SameOutcome j k) :
    SameOutcome (checkLength a j) (checkLength b k) := .ite (by rw [hl]) (fun _ => hk) (.refused _)

theorem SameHeld.checkPlacement (h : SameHeld s t) (hk : SameOutcome j k) :
    SameOutcome (checkPlacement s j) (checkPlacement t k) := .ite (by rw [h.overlap]) (fun _ => .refused _) hk

theorem SameHeld.checkLaunch (h : SameHeld s t) (hk : SameOutcome j k) :
    SameOutcome (checkLaunch s j) (checkLaunch t k) :=
  .checkLength h.adBytes (.checkLength h.inBytes (h.checkPlacement hk))

theorem SameOutcome.withPort {α : Type} {r : HostReg} {v w : Option α} {j k : α → Result} (hv : v = w)
    (hk : ∀ x, SameOutcome (j x) (k x)) : SameOutcome (withPort r v j) (withPort r w k) := by
  subst hv
  cases v with
  | some x => exact hk x
  | none => exact .refused _

theorem SameOutcome.withBuffer {b : Space} {m m' : Memory} {len len' : BitVec 64} {j k : List Byte → Result}
    (hm : m = m') (hl : len = len') (hk : ∀ x, SameOutcome (j x) (k x)) :
    SameOutcome (withBuffer b m len j) (withBuffer b m' len' k) := by
  subst hm hl
  unfold Machine.withBuffer
  split
  · exact hk _
  · exact .refused _

end Checks

section Operands

variable {s t : State} (h : SameHeld s t)

include h

theorem SameHeld.keyBytes : keyBytes s = keyBytes t := by simp only [Machine.keyBytes, h.keyLen, h.key]

theorem SameHeld.nonceBytes : nonceBytes s = nonceBytes t := by simp only [Machine.nonceBytes, h.nonceLen, h.nonce]

/-- The size check and the two key reads are the same, with the same key and nonce. -/
theorem SameHeld.checkedKey {j k : List Byte → List Byte → Result}
    (hk : ∀ key nonce, SameOutcome (j key nonce) (k key nonce)) :
    SameOutcome
      (Machine.checkSizes s <| withPort .key (Machine.keyBytes s) fun key =>
        withPort .nonce (Machine.nonceBytes s) fun nonce => j key nonce)
      (Machine.checkSizes t <| withPort .key (Machine.keyBytes t) fun key =>
        withPort .nonce (Machine.nonceBytes t) fun nonce => k key nonce) :=
  h.checkSizes <| .withPort h.keyBytes fun key => .withPort h.nonceBytes fun nonce => hk key nonce

theorem SameHeld.dinBytes (n : Nat) : dinBytes n s = dinBytes n t := by
  simp only [Machine.dinBytes, ← h.written]
  split
  · next hn =>
    congr 1
    apply List.ext_getElem?
    intro i
    rw [List.getElem?_take, List.getElem?_take]
    split
    · next hi =>
      by_cases h16 : i < 16
      · rw [toBytes_getElem? _ _ h16, toBytes_getElem? _ _ h16, h.din i (by omega)]
      · rw [List.getElem?_eq_none (by simp; omega), List.getElem?_eq_none (by simp; omega)]
    · rfl
  · rfl

theorem SameHeld.dinBlock : dinBlock s = dinBlock t := by
  simp only [Machine.dinBlock, ← h.written]
  split
  · next hd => rw [Block.ext_bytes fun i hi => h.din i (by omega)]
  · rfl

theorem SameHeld.adLenOperand : adLenOperand s = adLenOperand t := by
  simp only [Machine.adLenOperand, ← h.written]
  split
  · next hw => rw [h.adLenBits hw]
  · rfl

theorem SameHeld.msgLenOperand : msgLenOperand s = msgLenOperand t := by
  simp only [Machine.msgLenOperand, ← h.written]
  split
  · next hw => rw [h.msgLenBits hw]
  · rfl

theorem SameHeld.tagInOperand : tagInOperand s = tagInOperand t := by
  simp only [Machine.tagInOperand, ← h.written]
  split
  · next hw => rw [h.tagIn hw]
  · rfl

/-- A data command finds the same `S`: it runs only after INIT. -/
theorem SameHeld.S_of_takesData (hp : s.phase.takesData = true) : s.S = t.S :=
  h.S fun hu => by rw [hu] at hp; cases hp

end Operands

/-! ### Commands -/

section Commands

variable (p : Params) {s t : State} (h : SameHeld s t)

include h

theorem SameHeld.cmdInit : SameOutcome (cmdInit p s) (cmdInit p t) :=
  h.checkPhase fun _ => h.checkedKey fun _ _ => .complete (.clearKeyPorts (.setS h)) fun _ => rfl

theorem SameHeld.cmdAbsorb : SameOutcome (cmdAbsorb p s) (cmdAbsorb p t) :=
  h.checkPhase fun hp => .withPort h.dinBlock fun x => by
    rw [h.S_of_takesData hp]
    exact .complete (.setS h) fun _ => rfl

theorem SameHeld.cmdEnc : SameOutcome (cmdEnc p s) (cmdEnc p t) :=
  h.checkPhase fun hp => .withPort h.dinBlock fun m => by
    rw [h.S_of_takesData hp]
    exact .complete (.putDout (.setS h)) fun _ => rfl

theorem SameHeld.cmdDec : SameOutcome (cmdDec p s) (cmdDec p t) :=
  h.checkPhase fun hp => .withPort h.dinBlock fun ct => by
    rw [h.S_of_takesData hp]
    exact .complete (.putDout (.setS h)) fun _ => rfl

theorem SameHeld.cmdDecp (n : BitVec 4) : SameOutcome (cmdDecp p n s) (cmdDecp p n t) := by
  unfold Machine.cmdDecp
  split
  · exact h.contract
  · exact h.checkPhase fun hp => .withPort (h.dinBytes n.toNat) fun cn => by
      rw [h.S_of_takesData hp]
      exact .complete (.putDout (.setS h)) fun _ => rfl

theorem SameHeld.cmdFinal : SameOutcome (cmdFinal p s) (cmdFinal p t) :=
  h.checkPhase fun hp => .withPort h.adLenOperand fun adLen => .withPort h.msgLenOperand fun msgLen => by
    rw [h.S_of_takesData hp]
    exact .complete (.putTag (.setS h)) fun _ => rfl

theorem SameHeld.cmdEncrypt : SameOutcome (cmdEncrypt p s) (cmdEncrypt p t) :=
  h.checkPhase fun _ => h.checkLaunch <| h.checkedKey fun _ _ =>
    .withBuffer h.ad h.adBytes fun _ => .withBuffer h.inp h.inBytes fun _ =>
      .complete (.clearKeyPorts (.putTag (.putOut (.setS h)))) fun _ => rfl

theorem SameHeld.cmdDecrypt : SameOutcome (cmdDecrypt p s) (cmdDecrypt p t) :=
  h.checkPhase fun _ => h.checkLaunch <| h.checkedKey fun key nonce => .withPort h.tagInOperand fun tagIn =>
    .withBuffer h.ad h.adBytes fun ad => .withBuffer h.inp h.inBytes fun ct => by
      dsimp only
      split
      · rw [complete_decryptWork, complete_decryptWork]
        exact .complete (.clearKeyPorts (.putOut (.setS h))) fun _ => rfl
      · rw [authFail_decryptWork, authFail_decryptWork]
        exact .authFail (.clearKeyPorts (.putOut (.setS h))) rfl

theorem SameHeld.cmdMac : SameOutcome (cmdMac p s) (cmdMac p t) :=
  h.checkPhase fun _ => h.checkLaunch <| h.checkedKey fun _ _ => .withBuffer h.ad h.adBytes fun _ =>
    .complete (.clearKeyPorts (.putTag (.clearOutLen (.setS h)))) fun _ => rfl

/-- STREAM of no bytes runs no INIT, and stays in Uninitialized. -/
theorem SameHeld.cmdStream : SameOutcome (cmdStream p s) (cmdStream p t) := by
  refine h.checkPhase fun _ => h.checkLaunch (.ite (by rw [h.inBytes]) (fun h0 => ?_) (h.checkedKey fun key nonce => ?_))
  · exact .complete h.clearOutLen fun hne => absurd (by simp [Machine.nextPhase, h0]) hne
  · have hlen : streamBytes p key nonce s.inBytes.toNat = streamBytes p key nonce t.inBytes.toNat := by rw [h.inBytes]
    simp only [hlen]
    exact .complete (.clearKeyPorts (.putOut (.setS h))) fun _ => rfl

end Commands

/-- Each command ends alike in states that agree on what is held. -/
theorem SameHeld.exec {s t : State} (h : SameHeld s t) (i : Instr) : SameOutcome (exec i s) (exec i t) := by
  rw [exec_eq_execWith, exec_eq_execWith]
  cases i with
  | init => exact h.cmdInit _
  | absorb => exact h.cmdAbsorb _
  | enc => exact h.cmdEnc _
  | dec => exact h.cmdDec _
  | decp n => exact h.cmdDecp _ n
  | final => exact h.cmdFinal _
  | encrypt => exact h.cmdEncrypt _
  | decrypt => exact h.cmdDecrypt _
  | mac => exact h.cmdMac _
  | stream => exact h.cmdStream _

/-! ### Host actions -/

/-- A write of `DIN` gives the same bytes wherever one is held after it. -/
theorem SameHeld.setDin {s t : State} (h : SameHeld s t) (x : List Byte) :
    SameHeld
      { s with din := overlayBytes x s.din, written := { s.written with din := max s.written.din x.length } }
      { t with din := overlayBytes x t.din, written := { t.written with din := max t.written.din x.length } } :=
  { h with
    written := congrArg (fun w : Written => { w with din := max w.din x.length }) h.written
    din := fun i hi => by
      rcases Nat.lt_or_ge i 16 with h16 | h16
      · rw [byteOf_overlayBytes x _ h16, byteOf_overlayBytes x _ h16]
        split
        · rfl
        · next hx => exact h.din i ((lt_max_iff.1 hi).resolve_right hx)
      · rw [byteOf_ge _ i h16, byteOf_ge _ i h16] }

theorem SameHeld.portWrite {s t : State} (h : SameHeld s t) (w : PortWrite) :
    SameOutcome (portWrite w s) (portWrite w t) := by
  cases w with
  | keyLen v => exact { h with keyLen := rfl, key := congrArg (List.take v.toNat) h.key }
  | nonceLen v => exact { h with nonceLen := rfl, nonce := congrArg (List.take v.toNat) h.nonce }
  | key x => exact .ite (by rw [h.keyLen]) (fun _ => { h with key := rfl }) (.refused _)
  | nonce x => exact .ite (by rw [h.nonceLen]) (fun _ => { h with nonce := rfl }) (.refused _)
  | din x => exact .ite Iff.rfl (fun _ => h.setDin x) (.refused _)
  | adLenBits v =>
    exact { h with
      adLenBits := fun _ => rfl, written := congrArg (fun w : Written => { w with adLenBits := true }) h.written }
  | msgLenBits v =>
    exact { h with
      msgLenBits := fun _ => rfl, written := congrArg (fun w : Written => { w with msgLenBits := true }) h.written }
  | tagIn v =>
    exact { h with tagIn := fun _ => rfl, written := congrArg (fun w : Written => { w with tagIn := true }) h.written }
  | adBytes v => exact { h with adBytes := rfl }
  | inBytes v => exact { h with inBytes := rfl }

theorem SameHeld.resultPort {s t : State} (h : SameHeld s t) (r : HostReg) {w : Bool} {b c : Block}
    (hb : w = true → b = c) : resultPort r w b s = resultPort r w c t := by
  unfold Machine.resultPort
  rw [h.phase]
  cases w with
  | true => rw [hb rfl]
  | false => rfl

/-- A host read of a register gives the same value or the same stop. -/
theorem SameHeld.hostRead {s t : State} (h : SameHeld s t) (r : HostReg) : hostRead r s = hostRead r t := by
  cases r with
  | phase => simp only [Machine.hostRead, h.phase]
  | err => simp only [Machine.hostRead, h.err]
  | dout =>
    simp only [Machine.hostRead, ← h.written]
    exact h.resultPort _ h.dout
  | tag =>
    simp only [Machine.hostRead, ← h.written]
    exact h.resultPort _ h.tag
  | _ => rfl

theorem SameHeld.hostReadOut {s t : State} (h : SameHeld s t) (a : BitVec 64) : hostReadOut a s = hostReadOut a t := by
  simp only [Machine.hostReadOut, h.phase, h.outLen, h.out]

theorem SameHeld.afterRead {s t : State} (h : SameHeld s t) {r r' : ReadResult} (hr : r = r') :
    SameOutcome (afterRead r s) (afterRead r' t) := by
  subst hr
  cases r with
  | next v => exact h
  | fault f => exact .fault f
  | refused f => exact .refused f

theorem SameOutcome.hostLoad {addr : BitVec 64} {x : List Byte} {m m' : Memory} {j k : Memory → State} (hm : m = m')
    (hk : ∀ m, SameHeld (j m) (k m)) : SameOutcome (hostLoad addr x m j) (hostLoad addr x m' k) := by
  subst hm
  exact .ite Iff.rfl (fun _ => hk _) (.fault _)

/-- Each action of the host ends alike in states that agree on what is held. -/
theorem SameHeld.hostAct {s t : State} (h : SameHeld s t) (a : HostAction) :
    SameOutcome (hostAct a s) (hostAct a t) := by
  cases a with
  | write w => exact h.portWrite w
  | loadAd addr x => rw [Machine.hostAct, Machine.hostAct]; exact .hostLoad h.ad fun _ => h.setAd
  | loadIn addr x => rw [Machine.hostAct, Machine.hostAct]; exact .hostLoad h.inp fun _ => h.setInp
  | placeBuffers v => exact { h with overlap := rfl }
  | command w =>
    simp only [Machine.hostAct, issue]
    split
    · exact h.exec _
    · exact h.contract
  | read r => exact h.afterRead (h.hostRead r)
  | readOut addr => exact h.afterRead (h.hostReadOut addr)
  | reset => exact h.resetEvent
  | actWhileRunning w => exact .refused _

/-- Settles O39: a step holds both states, or is the same action of the host in both. -/
theorem unheldValuesNeverMatter : Obligations.UnheldValuesNeverMatter := by
  intro s t h
  cases hs : s.host with
  | nil => rw [step_of_host_nil hs, step_of_host_nil (h.host ▸ hs)]; exact h
  | cons a rest => rw [step_of_host_cons hs, step_of_host_cons (h.host ▸ hs)]; exact h.setHost.hostAct a

end Sys2Proof.Machine
end

section
/-! PROOF. The length block's bytes and the host's reads (20_memory.md R29, R40, 40_blockalgebra.md R55). -/

namespace Sys2Proof.Machine

/-! ### The length block -/

@[simp] theorem le64_length (u : BitVec 64) : (le64 u).length = 8 := by simp [le64]

/-- Byte `i` of `LE64(u)` is `u` shifted right by `i` bytes (40_blockalgebra.md R55). -/
theorem le64_getD (u : BitVec 64) {i : Nat} (h : i < 8) : (le64 u).getD i 0#8 = (u >>> (8 * i)).setWidth 8 := by
  rw [BitVec.setWidth_ushiftRight_eq_extractLsb]
  simp [le64, h]

/-- Settles O44: a byte below 8 is one of the first `LE64`, the others are bytes of the second. -/
theorem lengthBlockBytes : Obligations.LengthBlockBytes := by
  intro a m i hi
  rw [lengthBlock, byteOf_ofBytes _ _ hi]
  split
  · next h => rw [List.getD_append _ _ _ _ (by simpa using h), le64_getD a h]
  · next h =>
    have hm : i - 8 < 8 := by omega
    rw [List.getD_append_right _ _ _ _ (by simpa using h), le64_length, le64_getD m hm]

/-! ### Host reads -/

/-- A read of a register does not depend on the host's next actions. -/
@[simp] theorem hostRead_setHost (r : HostReg) (s : State) (rest : List HostAction) :
    hostRead r { s with host := rest } = hostRead r s := rfl

@[simp] theorem hostReadOut_setHost (a : BitVec 64) (s : State) (rest : List HostAction) :
    hostReadOut a { s with host := rest } = hostReadOut a s := rfl

theorem step_read {s : State} {r : HostReg} {rest : List HostAction} (h : s.host = .read r :: rest) :
    step s = afterRead (hostRead r s) { s with host := rest } := by
  rw [step_of_host_cons h, hostAct, hostRead_setHost]

theorem step_readOut {s : State} {a : BitVec 64} {rest : List HostAction} (h : s.host = .readOut a :: rest) :
    step s = afterRead (hostReadOut a s) { s with host := rest } := by
  rw [step_of_host_cons h, hostAct, hostReadOut_setHost]

/-- How an action that reads ends, by how its read ends: with a value the state stays, a stop is the action's. -/
theorem afterRead_of_read (r : ReadResult) (s : State) :
    (∀ v, r = .next v → afterRead r s = .next s) ∧ (∀ f, r = .fault f → afterRead r s = .fault f) ∧
    (∀ f, r = .refused f → afterRead r s = .refused f) :=
  ⟨fun _ h => h ▸ rfl, fun _ h => h ▸ rfl, fun _ h => h ▸ rfl⟩

/-- Settles O55: such a step is `afterRead` of the read. -/
theorem readsHaveNoEffect : Obligations.ReadsHaveNoEffect := by
  intro s rest
  refine ⟨fun r h => ?_, fun a h => ?_⟩
  · rw [step_read h]
    exact afterRead_of_read (hostRead r s) _
  · rw [step_readOut h]
    exact afterRead_of_read (hostReadOut a s) _

end Sys2Proof.Machine
end

section
/-! PROOF. The command word (30_encoding.md R41 to R44): the fields of a word, when it decodes to a command and when it is
reserved; what a `CMD` write does; and the key ports after the assembler's loads (R46, R47). -/

namespace Sys2Proof

/-! ### The two fields of a word -/

@[simp] theorem opField_append (op arg : BitVec 4) : opField (op ++ arg) = op :=
  BitVec.extractLsb'_append_eq_left

@[simp] theorem argField_append (op arg : BitVec 4) : argField (op ++ arg) = arg :=
  BitVec.extractLsb'_append_eq_right

/-- A word is its `op` field, then its `arg` field. -/
theorem opField_append_argField (w : BitVec 8) : opField w ++ argField w = w :=
  (BitVec.extractLsb'_append_extractLsb'_eq_extractLsb' rfl).trans BitVec.extractLsb'_eq_self

/-- A word is determined by its fields. -/
theorem eq_append_iff {w : BitVec 8} {op arg : BitVec 4} : w = op ++ arg ↔ opField w = op ∧ argField w = arg := by
  constructor
  · rintro rfl
    exact ⟨opField_append op arg, argField_append op arg⟩
  · rintro ⟨rfl, rfl⟩
    exact (opField_append_argField w).symm

/-- `op` is the word without its low four bits. -/
theorem toNat_ushiftRight_four (w : BitVec 8) : (w >>> 4).toNat = (opField w).toNat := by
  have hw := w.isLt
  simp only [opField, BitVec.toNat_ushiftRight, BitVec.extractLsb'_toNat, Nat.shiftRight_eq_div_pow]
  omega

/-- The low four bits of a word are `arg`. -/
theorem and_lowBits (w : BitVec 8) : w &&& 0x0F#8 = 0#4 ++ argField w :=
  calc w &&& 0x0F#8 = (opField w ++ argField w) &&& (0#4 ++ BitVec.allOnes 4) := by rw [opField_append_argField]; rfl
    _ = 0#4 ++ argField w := by rw [BitVec.and_append, BitVec.and_zero, BitVec.and_allOnes]

theorem and_lowBits_eq_zero_iff (w : BitVec 8) : w &&& 0x0F#8 = 0#8 ↔ argField w = 0#4 := by
  rw [and_lowBits]
  exact BitVec.append_right_inj 0#4 (t₂ := 0#4)

/-! ### The decoder -/

theorem plainCommand_eq_command {arg : BitVec 4} {i j : Instr} :
    plainCommand arg i = .command j ↔ arg = 0#4 ∧ i = j := by
  unfold plainCommand
  split <;> simp [*]

theorem exists_plainCommand_reserved {arg : BitVec 4} {i : Instr} :
    (∃ why, plainCommand arg i = .reserved why) ↔ arg ≠ 0#4 := by
  unfold plainCommand
  split <;> simp [*]

/-- The decoder takes the word of each well-formed command to that command. -/
theorem decode_encode {i : Instr} (h : i.wf = true) : decode (encode i) = .command i := by
  cases i with
  | decp n =>
    have hn : n ≠ 0#4 := by simpa [Instr.wf] using h
    simp [decode, encode, hn]
  | _ => rfl

/-- A word that decodes to a command is that of the command, which is well formed. -/
theorem encode_of_decode {w : BitVec 8} {i : Instr} (h : decode w = .command i) : encode i = w ∧ i.wf = true := by
  have word {op arg : BitVec 4} (ho : (opField w).toNat = op.toNat) (ha : argField w = arg) : op ++ arg = w :=
    (eq_append_iff.2 ⟨BitVec.eq_of_toNat_eq ho, ha⟩).symm
  unfold decode at h
  split at h
  case h_5 ho => -- `op` 0x5, DECP
    split at h
    · cases h
    · next ha => cases h; exact ⟨word ho rfl, by simpa [Instr.wf] using ha⟩
  case h_11 => cases h -- a reserved `op`
  all_goals
    next ho =>
      obtain ⟨ha, rfl⟩ := plainCommand_eq_command.1 h
      exact ⟨word ho ha, rfl⟩

/-- The reserved words by their fields (30_encoding.md R44). -/
theorem exists_decode_reserved_iff (w : BitVec 8) :
    (∃ why, decode w = .reserved why) ↔
      ((opField w).toNat ∈ [0x0, 0x7, 0xC, 0xD, 0xE, 0xF] ∨
       ((opField w).toNat ∈ [0x1, 0x2, 0x3, 0x4, 0x6, 0x8, 0x9, 0xA, 0xB] ∧ argField w ≠ 0#4) ∨
       (opField w).toNat = 5 ∧ argField w = 0#4) := by
  unfold decode
  split
  case h_5 ho => split <;> simp [*] -- `op` 0x5, DECP
  case h_11 => -- a reserved `op`
    have hlt := (opField w).isLt
    have hop : (opField w).toNat ∈ [0x0, 0x7, 0xC, 0xD, 0xE, 0xF] := by
      simp only [imp_false, List.mem_cons, List.not_mem_nil, or_false] at *
      omega
    exact iff_of_true ⟨_, rfl⟩ (.inl hop)
  all_goals
    next ho => simp [ho, exists_plainCommand_reserved]

theorem decodeTableWord_eq_some_iff {nbits w : Nat} {i : Instr} :
    decodeTableWord nbits w = some i ↔ decode (tableWord nbits w) = .command i := by
  unfold decodeTableWord
  split <;> simp [*]

@[simp] theorem tableWord_toNat (w : BitVec 8) : tableWord 8 w.toNat = w := by
  simp [tableWord, Nat.mod_eq_of_lt w.isLt]

/-- 232 of the 256 words are reserved: all but nine commands without an immediate and DECP's fifteen counts. -/
theorem count_reservedWords : ((List.range 256).filter fun w => (decodeTableWord 8 w).isNone).length = 232 := by rfl

/-- Settles O1: the word's fields are the opcode map's, and the table's word of 8 bits is the word itself. -/
theorem decodeOfEncode : Obligations.DecodeOfEncode := fun i h =>
  ⟨decode_encode h, decodeTableWord_eq_some_iff.2 (by rw [tableWord_toNat, decode_encode h])⟩

/-- Settles O2: each arm of the decoder fixes both fields, and they determine the word. -/
theorem encodeOfDecode : Obligations.EncodeOfDecode := fun _ _ h => encode_of_decode h

/-- Settles O4: the words are those of the encoder. -/
theorem wordsOfTheTable : Obligations.WordsOfTheTable :=
  ⟨decode_encode (i := .init) rfl, decode_encode (i := .absorb) rfl, decode_encode (i := .enc) rfl,
    decode_encode (i := .dec) rfl, decode_encode (i := .decp 5#4) rfl, decode_encode (i := .final) rfl,
    decode_encode (i := .encrypt) rfl, decode_encode (i := .decrypt) rfl, decode_encode (i := .mac) rfl,
    decode_encode (i := .stream) rfl⟩

end Sys2Proof

namespace Sys2Proof.Machine

/-! ### A write of `CMD` -/

theorem issue_command {w : BitVec 8} {i : Instr} (h : decode w = .command i) (s : State) : issue w s = exec i s := by
  simp only [issue, h]

theorem issue_reserved {w : BitVec 8} {why : Reject} (h : decode w = .reserved why) (s : State) :
    issue w s = .next (takeException .contract s) := by simp only [issue, h]

/-- Settles O3: the fields of R44's words are read off the decoder's arms, the words are counted, and a reserved word's
step takes ContractViolation. -/
theorem reservedWordsExactly : Obligations.ReservedWordsExactly := by
  refine ⟨fun w => ?_, count_reservedWords, fun s w why rest hs hw => ?_⟩
  · have hzero : w = 0x50#8 ↔ (opField w).toNat = 5 ∧ argField w = 0#4 :=
      (eq_append_iff (op := 5#4) (arg := 0#4)).trans (and_congr_left' BitVec.toNat_eq)
    simp only [exists_decode_reserved_iff, toNat_ushiftRight_four, ne_eq, and_lowBits_eq_zero_iff, hzero]
  · refine ⟨takeException .contract { s with host := rest }, ?_, rfl⟩
    rw [step_of_host_cons hs, hostAct, issue_reserved hw]

/-- Settles O5: such a step is `issue` of the word; with no action it holds the state. -/
theorem stepRunsTheCommand : Obligations.StepRunsTheCommand := by
  have runs {s : State} {w : BitVec 8} {i : Instr} {rest : List HostAction} (hs : s.host = .command w :: rest)
      (hw : decode w = .command i) : step s = exec i { s with host := rest } := by
    rw [step_of_host_cons hs, hostAct, issue_command hw]
  exact ⟨fun _ _ _ _ => runs, fun s nbits w i hw => runs rfl (decodeTableWord_eq_some_iff.1 hw),
    fun _ => step_of_host_nil⟩

/-! ### The assembler's loads -/

theorem portWrite_key {s : State} {x : List Byte} (h : x.length = s.keyLen.toNat) :
    portWrite (.key x) s = .next { s with key := x } := if_pos h

theorem portWrite_nonce {s : State} {x : List Byte} (h : x.length = s.nonceLen.toNat) :
    portWrite (.nonce x) s = .next { s with nonce := x } := if_pos h

/-- A run whose first step goes on is the run of the other steps from there. -/
theorem run_succ_of_step {M : Host.Core} {s t : M.State} (h : M.step s = .next t) (k : Nat) :
    M.run (k + 1) s = M.run k t := by
  rw [Host.Core.run, h]

/-- A port write that goes on is one step of a run. -/
theorem core_run_write {s t : State} {w : PortWrite} {rest : List HostAction} {k : Nat}
    (hs : s.host = .write w :: rest) (hw : portWrite w { s with host := rest } = .next t) :
    Sys2Proof.core.run (k + 1) s = Sys2Proof.core.run k t :=
  run_succ_of_step (M := Sys2Proof.core) ((step_of_host_cons hs).trans hw) k

/-- The four loads leave key and nonce in their ports, whole, and change nothing else (30_encoding.md R47). -/
theorem core_run_loadKeyNonce {s : State} {key nonce : List Byte} {rest : List HostAction}
    (hs : s.host = loadKeyNonce key nonce ++ rest) (hk : key.length < 2 ^ 16) (hn : nonce.length < 2 ^ 16) :
    Sys2Proof.core.run 4 s = .next { s with
      keyLen := BitVec.ofNat 16 key.length, key := key
      nonceLen := BitVec.ofNat 16 nonce.length, nonce := nonce, host := rest } := by
  have fits {x : List Byte} (hx : x.length < 2 ^ 16) : x.length = (BitVec.ofNat 16 x.length).toNat :=
    (Nat.mod_eq_of_lt hx).symm
  rw [core_run_write hs rfl, core_run_write rfl (portWrite_key (fits hk)), core_run_write rfl rfl,
    core_run_write rfl (portWrite_nonce (fits hn))]
  rfl

/-- Settles O51: the line's four loads, from reset. -/
theorem assembledInitLoadsThePorts : Obligations.AssembledInitLoadsThePorts := fun key nonce hk hn =>
  ⟨_, core_run_loadKeyNonce rfl (by omega) (by omega), ⟨by rw [hk], hk, by rw [hn], hn⟩, rfl, rfl, rfl, rfl⟩

end Sys2Proof.Machine
end

section
/-! PROOF. The block algebra (40_blockalgebra.md R52 to R54, R56): TRUNCATE and TAIL bit by bit, the laws of padding, the
comparator's reads. -/

namespace Sys2Proof.Machine

/-! ### The bits of a byte string -/

/-- Bit `k` of a byte string: bit `k % 8` of its byte `k / 8`, and 0 beyond its end (20_memory.md R28). -/
def bitAt (x : List Byte) (k : Nat) : Bool := (x.getD (k / 8) 0#8).getLsbD (k % 8)

theorem bitAt_byte_add (x : List Byte) (i : Nat) {j : Nat} (hj : j < 8) :
    bitAt x (8 * i + j) = (x.getD i 0#8).getLsbD j := by
  have hdiv : (8 * i + j) / 8 = i := by omega
  have hmod : (8 * i + j) % 8 = j := by omega
  rw [bitAt, hdiv, hmod]

theorem bitAt_of_ge {x : List Byte} {k : Nat} (h : 8 * x.length ≤ k) : bitAt x k = false := by
  rw [bitAt, List.getD_eq_default _ _ (by omega), BitVec.getLsbD_zero]

theorem bitAt_take (x : List Byte) (n k : Nat) : bitAt (x.take n) k = (decide (k < 8 * n) && bitAt x k) := by
  have hlt : k / 8 < n ↔ k < 8 * n := by omega
  by_cases h : k < 8 * n <;> simp [bitAt, hlt, h]

/-- The bits of the last byte, where one is appended. -/
theorem bitAt_append_byte (x : List Byte) (b : Byte) {j : Nat} (hj : j < 8) :
    bitAt (x ++ [b]) (8 * x.length + j) = b.getLsbD j := by
  rw [bitAt_byte_add _ _ hj, List.getD_append_right _ _ _ _ (Nat.le_refl _), Nat.sub_self]
  rfl

theorem bitAt_append_left {x : List Byte} {k : Nat} (y : List Byte) (h : k < 8 * x.length) :
    bitAt (x ++ y) k = bitAt x k := by
  rw [bitAt, List.getD_append _ _ _ _ (by omega), bitAt]

/-! ### TRUNCATE -/

theorem truncate_of_le {x : List Byte} {nBits : Nat} (h : nBits ≤ 8 * x.length) :
    truncate x nBits = some (truncateBits x nBits) := if_pos h

theorem truncate_of_gt {x : List Byte} {nBits : Nat} (h : 8 * x.length < nBits) : truncate x nBits = none :=
  if_neg (by omega)

/-- A TRUNCATE that ends inside a byte: the whole bytes, then that byte under its mask. -/
theorem truncateBits_partial (x : List Byte) (n : Nat) {q : Nat} (h0 : 0 < q) (h8 : q < 8) :
    truncateBits x (8 * n + q) = x.take n ++ [x.getD n 0#8 &&& BitVec.ofNat 8 (2 ^ q - 1)] := by
  have hlast : (8 * n + q + 7) / 8 - 1 = n := by omega
  have hmod : (8 * n + q) % 8 = q := by omega
  simp only [truncateBits, hlast, hmod, if_neg (Nat.ne_of_gt h0)]

theorem truncateBits_length {x : List Byte} {nBits : Nat} (h : nBits ≤ 8 * x.length) :
    (truncateBits x nBits).length = (nBits + 7) / 8 := by
  obtain ⟨n, q, hq, rfl⟩ : ∃ n q, q < 8 ∧ nBits = 8 * n + q := ⟨nBits / 8, nBits % 8, by omega, by omega⟩
  rcases Nat.eq_zero_or_pos q with rfl | h0
  · rw [Nat.add_zero, truncateBits_aligned, List.length_take]
    omega
  · rw [truncateBits_partial x n h0 hq, List.length_append, List.length_take, List.length_singleton]
    omega

/-- The mask keeps the low `q` bits of a byte. -/
theorem getLsbD_and_lowMask (b : Byte) (q : Nat) {j : Nat} (hj : j < 8) :
    (b &&& BitVec.ofNat 8 (2 ^ q - 1)).getLsbD j = (decide (j < q) && b.getLsbD j) := by
  rw [BitVec.getLsbD_and, BitVec.getLsbD_ofNat, Nat.testBit_two_pow_sub_one, decide_eq_true hj, Bool.true_and,
    Bool.and_comm]

/-- TRUNCATE bit by bit (40_blockalgebra.md R53). -/
theorem bitAt_truncateBits {x : List Byte} {nBits : Nat} (h : nBits ≤ 8 * x.length) (k : Nat) :
    bitAt (truncateBits x nBits) k = (decide (k < nBits) && bitAt x k) := by
  obtain ⟨n, q, hq, rfl⟩ : ∃ n q, q < 8 ∧ nBits = 8 * n + q := ⟨nBits / 8, nBits % 8, by omega, by omega⟩
  rcases Nat.eq_zero_or_pos q with rfl | h0
  · rw [Nat.add_zero, truncateBits_aligned, bitAt_take]
  · have hlen : (x.take n).length = n := List.length_take_of_le (by omega)
    rcases Nat.lt_or_ge k (8 * n) with hk | hk
    · have hk' : k < 8 * n + q := by omega
      rw [truncateBits_partial x n h0 hq, bitAt_append_left _ (by omega), bitAt_take, decide_eq_true hk,
        decide_eq_true hk']
    · rcases Nat.lt_or_ge k (8 * n + 8) with hk8 | hk8
      · obtain ⟨j, rfl⟩ := Nat.exists_eq_add_of_le hk
        have hj : j < 8 := by omega
        have hlast := bitAt_append_byte (x.take n) (x.getD n 0#8 &&& BitVec.ofNat 8 (2 ^ q - 1)) hj
        rw [hlen] at hlast
        rw [truncateBits_partial x n h0 hq, hlast, getLsbD_and_lowMask _ _ hj, bitAt_byte_add _ _ hj]
        simp only [Nat.add_lt_add_iff_left]
      · have hk' : ¬ k < 8 * n + q := by omega
        rw [bitAt_of_ge (by rw [truncateBits_length h]; omega), decide_eq_false hk', Bool.false_and]

/-- Settles O40: the whole bytes below `nBits`, then the byte it ends in under its mask. -/
theorem truncateKeepsFirstBits : Obligations.TruncateKeepsFirstBits := fun _ _ =>
  ⟨truncate_of_gt, fun h => ⟨_, truncate_of_le h, truncateBits_length h, fun k _ => bitAt_truncateBits h k⟩⟩

/-! ### TAIL -/

theorem tail_of_le {x : List Byte} {nBits : Nat} (h : nBits ≤ 8 * x.length) : tail x nBits = some (tailBits x nBits) :=
  if_pos h

theorem tail_of_gt {x : List Byte} {nBits : Nat} (h : 8 * x.length < nBits) : tail x nBits = none := if_neg (by omega)

/-- The two halves of a TAIL byte; a byte beyond the string, or a shift by 8, adds nothing. -/
theorem tailByte_eq (x : List Byte) (start sub i : Nat) :
    tailByte x start sub i = x.getD (start + i) 0#8 >>> sub ||| x.getD (start + i + 1) 0#8 <<< (8 - sub) := by
  unfold tailByte
  split
  · next h =>
    have hzero : x.getD (start + i + 1) 0#8 <<< (8 - sub) = 0#8 := by
      rcases h with rfl | hend
      · exact BitVec.shiftLeft_eq_zero (Nat.le_refl 8)
      · rw [List.getD_eq_default _ _ hend, BitVec.zero_shiftLeft]
    rw [hzero]
  · rfl

/-- A TAIL byte holds eight bits in a row of the string. -/
theorem tailByte_getLsbD (x : List Byte) (start i : Nat) {sub j : Nat} (hsub : sub < 8) (hj : j < 8) :
    (tailByte x start sub i).getLsbD j = bitAt x (8 * (start + i) + (sub + j)) := by
  rw [tailByte_eq, BitVec.getLsbD_or, BitVec.getLsbD_ushiftRight, BitVec.getLsbD_shiftLeft]
  rcases Nat.lt_or_ge (sub + j) 8 with h | h
  · have hhi : j < 8 - sub := by omega
    rw [bitAt_byte_add _ _ h, decide_eq_true hhi, Bool.not_true, Bool.and_false, Bool.false_and, Bool.or_false]
  · have hhi : ¬ j < 8 - sub := by omega
    have hnext : 8 * (start + i) + (sub + j) = 8 * (start + i + 1) + (j - (8 - sub)) := by omega
    rw [hnext, bitAt_byte_add _ _ (by omega), BitVec.getLsbD_of_ge _ _ h, decide_eq_true hj, decide_eq_false hhi,
      Bool.not_false, Bool.and_true, Bool.true_and, Bool.false_or]

theorem tailBits_length (x : List Byte) (nBits : Nat) : (tailBits x nBits).length = (nBits + 7) / 8 := by
  rw [tailBits, List.length_map, List.length_range]

theorem tailBits_getD {x : List Byte} {nBits i : Nat} (h : i < (nBits + 7) / 8) :
    (tailBits x nBits).getD i 0#8 = tailByte x ((8 * x.length - nBits) / 8) ((8 * x.length - nBits) % 8) i := by
  rw [List.getD_eq_getElem _ _ (by rwa [tailBits_length])]
  simp only [tailBits, List.getElem_map, List.getElem_range]

/-- TAIL bit by bit (40_blockalgebra.md R54): its bytes are the string from bit `8 * x.length - nBits` on. -/
theorem bitAt_tailBits {x : List Byte} {nBits k : Nat} (hk : k < 8 * (tailBits x nBits).length) :
    bitAt (tailBits x nBits) k = bitAt x (8 * x.length - nBits + k) := by
  rw [tailBits_length] at hk
  rw [bitAt, tailBits_getD (by omega), tailByte_getLsbD _ _ _ (by omega) (by omega)]
  congr 1
  omega

/-- Settles O41: byte by byte it is the string from bit `8 * x.length - nBits` on, and there is nothing past its end. -/
theorem tailTakesLastBits : Obligations.TailTakesLastBits := by
  refine fun x nBits => ⟨tail_of_gt, fun h => ⟨_, tail_of_le h, tailBits_length x nBits, fun k hk => ?_⟩⟩
  refine (bitAt_tailBits hk).trans ?_
  change _ = (decide (k < nBits) && bitAt x (8 * x.length - nBits + k))
  rcases Nat.lt_or_ge k nBits with hin | hout
  · rw [decide_eq_true hin, Bool.true_and]
  · rw [bitAt_of_ge (by omega), Bool.and_false]

/-! ### ZEROPAD -/

theorem zeroPad_of_bytes {n : Nat} (hn : 0 < n) (x : List Byte) : zeroPad x (8 * n) = some (padTo n x) := by
  have hdiv : 8 * n / 8 = n := by omega
  rw [zeroPad, if_neg (by omega), hdiv]

theorem padTo_of_dvd {n : Nat} {x : List Byte} (h : x.length % n = 0) : padTo n x = x := if_pos h

/-- Padding appends zero bytes only, fewer than one unit. -/
theorem exists_padTo_eq_append {n : Nat} (hn : 0 < n) (x : List Byte) :
    ∃ k < n, padTo n x = x ++ List.replicate k 0#8 := by
  unfold padTo
  split
  · exact ⟨0, hn, (List.append_nil x).symm⟩
  · exact ⟨n - x.length % n, by omega, rfl⟩

theorem padTo_padTo {n : Nat} (hn : 0 < n) (x : List Byte) : padTo n (padTo n x) = padTo n x :=
  padTo_of_dvd (padTo_length n x hn)

/-- Settles O42: padding appends `k` zeros, fewer than one unit, and aligned TRUNCATE and TAIL are `take` and `drop`. -/
theorem paddingLaws : Obligations.PaddingLaws := by
  intro x
  refine ⟨?_, ?_, fun nBits hpos hmod => ?_, ?_, fun b n _ hn => ?_⟩
  · rw [truncate_of_le (Nat.le_refl _), truncateBits_aligned, List.take_length]
  · rw [tail_of_le (Nat.le_refl _), show 8 * x.length = 8 * (x.length - 0) from rfl, tailBits_aligned x 0 (Nat.zero_le _),
      List.drop_zero]
  · obtain ⟨n, rfl⟩ := Nat.dvd_of_mod_eq_zero hmod
    have hn : 0 < n := by omega
    have hdiv : 8 * n / 8 = n := by omega
    obtain ⟨k, hk, happ⟩ := exists_padTo_eq_append hn x
    rw [hdiv]
    exact ⟨_, k, zeroPad_of_bytes hn x, by rw [zeroPad_of_bytes hn, padTo_padTo hn], padTo_length n x hn, happ, hk⟩
  · obtain ⟨k, hk, happ⟩ := exists_padTo_eq_append (by decide : 0 < 16) x
    have hmul := padTo_length 16 x (by decide)
    have hlen : (padTo 16 x).length = x.length + k := by rw [happ, List.length_append, List.length_replicate]
    refine ⟨_, zeroPad_of_bytes (by decide : 0 < 16) x, by omega, ?_⟩
    rw [truncate_of_le (by omega), truncateBits_aligned, happ, List.take_left]
  · have hlen := toBytes_length b
    exact ⟨_, _, truncate_of_le (by omega), tail_of_le (by omega), by
      rw [truncateBits_aligned, tailBits_toBytes b n (by omega), List.take_append_drop]⟩

/-! ### The comparator -/

theorem ctEq_reads {a b : List Byte} (h : a.length = b.length) : (ctEq a b).reads = 2 * a.length := by
  rw [ctEq, if_neg (not_not.2 h)]
  simpa using (ctEqLoop_eq a b h (0#8, 0)).2

theorem ctEq_reads_of_length_ne {a b : List Byte} (h : a.length ≠ b.length) : (ctEq a b).reads = 0 := by
  rw [ctEq, if_pos h]

/-- Settles O43: on equal lengths the loop never leaves early. -/
theorem comparatorReadsEverything : Obligations.ComparatorReadsEverything := fun a b =>
  ⟨ctEq_equal a b, ctEq_reads, ctEq_reads_of_length_ne⟩

end Sys2Proof.Machine
end

section
/-! PROOF. The CipherState unit (41_cipherstate.md R60 to R72): the slots after any number of ROLs and UPDATEs, what each
primitive command leaves, that DEC and DECP undo ENC, and how any command can end. -/

namespace Sys2Proof.Machine

/-! ### ROL and the slots of the register -/

/-- `n` ROLs shift every slot down by `n`, around the register. -/
theorem iterate_rol_getElem (S : StateReg) (n : Nat) {i : Nat} (hi : i < 16) :
    (rol^[n] S)[i] = S[(i + n) % 16]'(Nat.mod_lt _ (by decide)) := by
  induction n generalizing i with
  | zero => simp only [Function.iterate_zero, id_eq, Nat.add_zero, Nat.mod_eq_of_lt hi]
  | succ n ih =>
    have hmod : ((i + 1) % 16 + n) % 16 = (i + (n + 1)) % 16 := by omega
    simp only [Function.iterate_succ_apply', rol_getElem, ih (Nat.mod_lt _ (by decide)), hmod]

/-- Settles O8: the slots after any number of ROLs, and the logical order of the head-index register. -/
theorem rolRotatesLeft : Obligations.RolRotatesLeft := by
  refine ⟨fun S => ⟨fun i hi => ?_, rol_getElem S 15 (by decide), ?_⟩, fun h => ⟨rfl, rfl, h.logical_rol⟩⟩
  · have hmod : (i + 1) % 16 = i + 1 := by omega
    simp only [rol_getElem, hmod]
  · refine Vector.ext fun i hi => ?_
    have hmod : (i + 16) % 16 = i := by omega
    simp only [iterate_rol_getElem, hmod]

/-- UPDATE moves the Block of slot `k + 1` to slot `k`, altered by the input on its way from slots 3 and 13. -/
theorem updateClosed_getElem_of_lt (p : Params) (x : Block) (S : StateReg) {k : Nat} (hk : k < 15) :
    (updateClosed p x S)[k] = S[k + 1] ^^^ (if k = 2 ∨ k = 12 then x else 0#128) := by
  interval_cases k <;> simp [updateClosed]

/-- `d` UPDATEs after it entered at slot 15, a Block is at slot `15 - d`; the input has altered it once in slots 3 to 12
and twice, which is not at all, below (41_cipherstate.md R63). -/
theorem iterate_updateClosed_getElem (p : Params) (x : Block) (S : StateReg) (n d : Nat) {k : Nat} (hkd : k + d = 15) :
    ((updateClosed p x)^[n + d] S)[k] =
      ((updateClosed p x)^[n] S)[15] ^^^ (if 3 ≤ k ∧ k ≤ 12 then x else 0#128) := by
  induction d generalizing k with
  | zero =>
    obtain rfl : k = 15 := hkd
    simp
  | succ d ih =>
    have hk : k < 15 := by omega
    rw [← Nat.add_assoc, Function.iterate_succ_apply', updateClosed_getElem_of_lt p x _ hk, ih (by omega),
      BitVec.xor_assoc]
    congr 1
    interval_cases k <;> simp

/-- Settles O9: slot `k` has seen `15 - k` of the 32 UPDATEs since its Block entered. -/
theorem diffuseSlotRelation : Obligations.DiffuseSlotRelation := by
  intro p x c k hk
  have hrounds : 16 + k + 1 + (15 - k) = 32 := by omega
  have hslot := iterate_updateClosed_getElem p x c.S (16 + k + 1) (15 - k) (k := k) (by omega)
  simpa only [hrounds, Cipher.diffuse_eq, Cipher.repeatUpdate_eq] using hslot

/-! ### The primitive commands where they complete -/

/-- The body of INIT in closed form (41_cipherstate.md R64). -/
theorem Cipher.init_S (p : Params) (key nonce : List Byte) :
    (Cipher.init p key nonce).S = whiten (keyHalf0 key) (keyHalf1 key)
      ((updateClosed p p.c0)^[32] (loadTable p (keyHalf0 key) (keyHalf1 key) (ofBytes (nonce.take 16)))) := by
  rw [Cipher.init, Cipher.diffuse_eq]
  rfl

/-- The loaded table slot by slot (41_cipherstate.md R64). -/
theorem loadTable_eq_ofFn (p : Params) (k0 k1 n : Block) :
    loadTable p k0 k1 n = Vector.ofFn fun i : Fin 16 => sourceValue p k0 k1 n p.initTable[i] :=
  Vector.ext fun i hi => by simp [loadTable]

/-- Settles O11: the checks pass, and the body of INIT in closed form reads a whole key and nonce. -/
theorem initResult : Obligations.InitResult := by
  intro s hp hk
  have hph : s.phase.allows .init = true := by simp [Phase.allows, hp]
  have hnonce : s.nonce.take 16 = s.nonce := List.take_of_length_le hk.nonce.le
  have hhalf : (s.key.drop 16).take 16 = s.key.drop 16 := List.take_of_length_le (by simp [hk.key])
  refine (checkPhase_pos hph _).trans ((checkedKey_ready hk _).trans ?_)
  rw [Cipher.init_S, loadTable_eq_ofFn, hnonce, keyHalf0, keyHalf1, hhalf]
  rfl

/-- Where the phase allows the command and all of `DIN` is written, a data command works on `DIN`. -/
theorem checkedDin_ready {i : Instr} {s : State} (hp : s.phase.allows i = true) (hd : 16 ≤ s.written.din)
    (k : Block → Result) : (checkPhase i s <| withPort .din (dinBlock s) k) = k s.din := by
  rw [checkPhase_pos hp, dinBlock_ready hd, withPort_some]

/-- Settles O12: the checks pass, and ABSORB is one UPDATE. -/
theorem absorbResult : Obligations.AbsorbResult := by
  intro s hp hd
  refine (checkedDin_ready (i := .absorb) (takesData_iff.2 hp) hd _).trans ?_
  rw [Cipher.absorb_eq]
  rfl

/-- Settles O13: the checks pass, and ENC has its closed form. -/
theorem encResult : Obligations.EncResult := by
  intro s hp hd
  refine (checkedDin_ready (i := .enc) (takesData_iff.2 hp) hd _).trans ?_
  have hdout : keystream Config.params s.S ^^^ s.din = Config.params.aesl (s.S[0] ^^^ s.S[1]) ^^^ s.din ^^^ s.S[9] := by
    rw [keystream, BitVec.xor_assoc, BitVec.xor_comm s.S[9], ← BitVec.xor_assoc]
  rw [← hdout, Cipher.enc_eq]
  rfl

/-- Settles O14: the checks pass, and DEC has its closed form. -/
theorem decResult : Obligations.DecResult := by
  intro s hp hd
  refine (checkedDin_ready (i := .dec) (takesData_iff.2 hp) hd _).trans ?_
  have hm : keystream Config.params s.S ^^^ s.din =
      Config.params.aesl (s.S[0] ^^^ s.S[1]) ^^^ (s.din ^^^ s.S[9]) := by
    rw [keystream, BitVec.xor_comm s.din, BitVec.xor_assoc]
  rw [← hm, Cipher.dec_eq]
  rfl

/-- The bytes of DECP's plaintext: keystream against the bytes given, then zeros (41_cipherstate.md R69). -/
theorem byteOf_partialPlain (p : Params) (cn : List Byte) (S : StateReg) {j : Nat} (hj : j < 16) :
    byteOf (partialPlain p cn S) j = if j < cn.length then byteOf (keystream p S) j ^^^ cn.getD j 0#8 else 0#8 := by
  rw [partialPlain, byteOf_ofBytes _ _ hj]
  split
  · next h => simp [h]
  · next h => simp [Nat.not_lt.1 h]

theorem length_take_toBytes (b : Block) {n : Nat} (hn : n ≤ 16) : ((toBytes b).take n).length = n := by
  rw [List.length_take, toBytes_length, Nat.min_eq_left hn]

theorem getD_take_toBytes (b : Block) {n j : Nat} (h : j < n) : ((toBytes b).take n).getD j 0#8 = byteOf b j := by
  rw [List.getD_eq_getElem?_getD, List.getElem?_take_of_lt h, toBytes_getD]

/-- What DECP puts in `DOUT`, the first bytes of the plaintext Block and zeros, is the Block that drives its UPDATE
(41_cipherstate.md R69). -/
theorem ofBytes_take_partialPlain (p : Params) {cn : List Byte} (h : cn.length ≤ 16) (S : StateReg) :
    ofBytes ((toBytes (partialPlain p cn S)).take cn.length) = partialPlain p cn S := by
  refine Block.ext_bytes fun j hj => ?_
  rw [byteOf_ofBytes _ _ hj]
  by_cases hn : j < cn.length
  · exact getD_take_toBytes _ hn
  · rw [List.getD_eq_default _ _ (by rw [length_take_toBytes _ h]; omega), byteOf_partialPlain _ _ _ hj, if_neg hn]

/-- DECP where it completes: one UPDATE driven by the plaintext Block, which is left in `DOUT`. -/
theorem exec_decp_ready {n : BitVec 4} {s : State} (hn : n ≠ 0#4) (hp : s.phase = .initialized ∨ s.phase = .processing)
    (hd : n.toNat ≤ s.written.din) :
    let m := partialPlain Config.params ((toBytes s.din).take n.toNat) s.S
    exec (.decp n) s = .next { s with
      S := updateClosed Config.params m s.S
      dout := m
      written := { s.written with dout := true }, phase := .processing, err := .ok } := by
  have hlen := length_take_toBytes s.din n.isLt.le
  have hbody := Cipher.decPartial_eq Config.params _ (Cipher.start s.S) (hlen.trans_le n.isLt.le)
  have hdout := ofBytes_take_partialPlain Config.params (hlen.trans_le n.isLt.le) s.S
  rw [hlen] at hbody hdout
  refine (if_neg hn).trans ((checkPhase_pos (i := .decp n) (takesData_iff.2 hp) _).trans
    ((withPort_of_some (dinBytes_ready hd) _).trans ?_))
  rw [hbody]
  exact congrArg (fun m => Host.Outcome.next (complete (.decp n) (putDout m _))) ((ofBytes_padTo _).trans hdout)

/-- Settles O15: the plaintext Block is `partialPlain`, whose bytes are known. -/
theorem decpResult : Obligations.DecpResult := by
  intro n s hn hp hd
  refine ⟨_, fun j hj => ?_, exec_decp_ready hn hp hd⟩
  rw [byteOf_partialPlain _ _ _ hj, length_take_toBytes _ n.isLt.le]
  exact ite_congr rfl (fun h => congrArg _ (getD_take_toBytes _ h)) fun _ => rfl

/-- The length block holds the length of the data in its low half (20_memory.md R29). -/
theorem lengthBlock_eq_append (a m : BitVec 64) : lengthBlock a m = m ++ a := by
  refine Block.ext_bytes fun i hi => (lengthBlockBytes a m i hi).trans (BitVec.eq_of_getLsbD_eq fun k hk => ?_)
  rw [byteOf_getLsbD, BitVec.getLsbD_append]
  by_cases h : i < 8
  · have hlow : 8 * i + k < 64 := by omega
    simp [h, hk, hlow]
  · have hhigh : ¬ 8 * i + k < 64 := by omega
    have hsub : 8 * (i - 8) + k = 8 * i + k - 64 := by omega
    simp [h, hk, hhigh, hsub]

/-- The tag's fold, slot by slot (41_cipherstate.md R70). -/
theorem foldTag_eq (S : StateReg) :
    foldTag S = S[0] ^^^ S[1] ^^^ S[2] ^^^ S[3] ^^^ S[4] ^^^ S[5] ^^^ S[6] ^^^ S[7] ^^^ S[8] ^^^ S[9] ^^^ S[10] ^^^
      S[11] ^^^ S[12] ^^^ S[13] ^^^ S[14] ^^^ S[15] := by
  have hlist : S.toList = [S[0], S[1], S[2], S[3], S[4], S[5], S[6], S[7], S[8], S[9], S[10], S[11], S[12], S[13],
      S[14], S[15]] :=
    List.ext_getElem (by simp) fun i hi _ => by
      rw [Vector.length_toList] at hi
      interval_cases i <;> simp
  simp only [foldTag, hlist, List.foldl_cons, List.foldl_nil, BitVec.zero_xor]

/-- The body of FINAL in closed form (41_cipherstate.md R70). -/
theorem Cipher.finalize_eq (p : Params) (a m : BitVec 64) (c : Cipher) :
    c.finalize p a m = ({ S := (updateClosed p (m ++ a))^[32] c.S, updates := c.updates + 32 },
      foldTag ((updateClosed p (m ++ a))^[32] c.S)) := by
  rw [Cipher.finalize, Cipher.diffuse_eq, lengthBlock_eq_append]

/-- Settles O16: the checks pass, and the body of FINAL has its closed form. -/
theorem finalResult : Obligations.FinalResult := by
  intro s hp ha hm S
  have had : adLenOperand s = some s.adLenBits := if_pos ha
  have hmsg : msgLenOperand s = some s.msgLenBits := if_pos hm
  refine (checkPhase_pos (i := .final) (takesData_iff.2 hp) _).trans
    ((withPort_of_some had _).trans ((withPort_of_some hmsg _).trans ?_))
  rw [← foldTag_eq, Cipher.finalize_eq]
  rfl

/-! ### DEC and DECP undo ENC -/

/-- Where ENC goes on in a phase that takes data, all of `DIN` is written, and the outcome is that of O13. -/
theorem enc_next {s t : State} (hp : s.phase = .initialized ∨ s.phase = .processing) (h : exec .enc s = .next t) :
    16 ≤ s.written.din ∧ t.S = updateClosed Config.params s.din s.S ∧ t.dout = keystream Config.params s.S ^^^ s.din := by
  rw [exec_eq_execWith] at h
  rcases cmdEnc_next h with ⟨-, hd, rfl⟩ | ⟨hf, -⟩
  · rw [Cipher.enc_eq]
    exact ⟨hd, rfl, rfl⟩
  · rw [takesData_iff.2 hp] at hf
    cases hf

/-- Settles O17: the keystream Block meets `DOUT` of ENC and leaves the plaintext, which drives the same UPDATE. -/
theorem decUndoesEnc : Obligations.DecUndoesEnc := by
  intro s t hp h
  obtain ⟨hd, hS, hdout⟩ := enc_next hp h
  have hm : Config.params.aesl (s.S[0] ^^^ s.S[1]) ^^^ (t.dout ^^^ s.S[9]) = s.din := by
    rw [BitVec.xor_comm t.dout, ← BitVec.xor_assoc, ← keystream, hdout, xor_cancel_left]
  refine ⟨_, decResult { s with din := t.dout } hp hd, hm, ?_⟩
  rw [hS]
  exact congrArg (updateClosed Config.params · s.S) hm

/-- A Block made of bytes begins with them, whatever follows. -/
theorem take_toBytes_ofBytes_append {x : List Byte} (h : x.length ≤ 16) (y : List Byte) :
    (toBytes (ofBytes (x ++ y))).take x.length = x := by
  refine List.ext_getElem (length_take_toBytes _ h) fun j _ hj => ?_
  have hbyte : byteOf (ofBytes (x ++ y)) j = x[j] := by
    rw [byteOf_ofBytes _ _ (by omega), List.getD_append _ _ _ _ hj, List.getD_eq_getElem _ _ hj]
  rw [← hbyte, ← getD_take_toBytes _ hj, List.getD_eq_getElem]

/-- DECP's plaintext Block, from the first bytes of an encrypted padded Block, is the padded Block. -/
theorem partialPlain_of_padded (p : Params) (S : StateReg) {x : List Byte} (h : x.length ≤ 16) :
    partialPlain p ((toBytes (keystream p S ^^^ ofBytes x)).take x.length) S = ofBytes x := by
  refine Block.ext_bytes fun j hj => ?_
  rw [byteOf_partialPlain _ _ _ hj, length_take_toBytes _ h, byteOf_ofBytes x _ hj]
  split
  · next hx =>
    rw [getD_take_toBytes _ hx, byteOf_xor, byteOf_ofBytes x _ hj, xor_cancel_left]
  · next hx => exact (List.getD_eq_default _ _ (Nat.not_lt.1 hx)).symm

/-- Settles O18: DECP's plaintext Block is the padded `mn`, so it drives the same UPDATE. -/
theorem decpUndoesPaddedEnc : Obligations.DecpUndoesPaddedEnc := by
  intro n mn rest s t hn hlen hp hdin h
  obtain ⟨hd, hS, hdout⟩ := enc_next hp h
  have h16 : n.toNat ≤ 16 := n.isLt.le
  have hcn := take_toBytes_ofBytes_append ((length_take_toBytes t.dout h16).trans_le h16) rest
  have hplain := partialPlain_of_padded Config.params s.S (hlen.trans_le h16)
  rw [length_take_toBytes _ h16] at hcn
  rw [hlen, ← hdin, ← hdout, ← hcn] at hplain
  refine ⟨_, exec_decp_ready hn hp (h16.trans hd), ?_, ?_⟩
  · have hmn := take_toBytes_ofBytes_append (hlen.trans_le h16) []
    rwa [List.append_nil, hlen, ← hdin, ← hplain] at hmn
  · rw [hS]
    exact congrArg (updateClosed Config.params · s.S) hplain

/-! ### How any command can end -/

/-- A command ends in its place of the phase table, in InvalidSize on wrong sizes, or in ContractViolation
(41_cipherstate.md R60, 60_exceptions.md R82 to R84). -/
theorem exec_ways {i : Instr} {s t : State} (h : exec i s = .next t) :
    (s.phase.allows i = true ∧ i ≠ .decp 0#4 ∧ t.phase = nextPhase i s ∧
      (t.err = .ok ∨ i = .decrypt ∧ t.err = .authFail)) ∨
    (i ∈ [.init, .encrypt, .decrypt, .mac, .stream] ∧ (i = .stream → s.inBytes ≠ 0#64) ∧
      ¬ (s.keyLen = 32#16 ∧ s.nonceLen = 16#16) ∧ s.phase = .uninitialized ∧ t = takeException .invalidSize s) ∨
    ((s.phase.allows i = false ∨ i = .decp 0#4) ∧ t = takeException .contract s) := by
  rw [exec_eq_execWith] at h
  have starts {i : Instr} (hp : s.phase = .uninitialized) (hi : i ∈ [.init, .encrypt, .decrypt, .mac, .stream]) :
      s.phase.allows i = true := by
    fin_cases hi <;> simp [Phase.allows, hp]
  cases i with
  | init =>
    rcases cmdInit_next h with ⟨hp, -, rfl⟩ | ⟨hp, hs, rfl⟩ | ⟨hf, rfl⟩
    · exact .inl ⟨starts hp (by simp), nofun, rfl, .inl rfl⟩
    · exact .inr (.inl ⟨by simp, nofun, hs, hp, rfl⟩)
    · exact .inr (.inr ⟨.inl hf, rfl⟩)
  | absorb =>
    rcases cmdAbsorb_next h with ⟨hp, -, rfl⟩ | ⟨hf, rfl⟩
    · exact .inl ⟨hp, nofun, rfl, .inl rfl⟩
    · exact .inr (.inr ⟨.inl hf, rfl⟩)
  | enc =>
    rcases cmdEnc_next h with ⟨hp, -, rfl⟩ | ⟨hf, rfl⟩
    · exact .inl ⟨hp, nofun, rfl, .inl rfl⟩
    · exact .inr (.inr ⟨.inl hf, rfl⟩)
  | dec =>
    rcases cmdDec_next h with ⟨hp, -, rfl⟩ | ⟨hf, rfl⟩
    · exact .inl ⟨hp, nofun, rfl, .inl rfl⟩
    · exact .inr (.inr ⟨.inl hf, rfl⟩)
  | decp n =>
    rcases cmdDecp_next h with ⟨hn, hp, -, rfl⟩ | ⟨hf, rfl⟩
    · exact .inl ⟨hp, fun e => hn (Instr.decp.inj e), rfl, .inl rfl⟩
    · exact .inr (.inr ⟨hf.symm.imp id (congrArg Instr.decp), rfl⟩)
  | final =>
    rcases cmdFinal_next h with ⟨hp, -, -, rfl⟩ | ⟨hf, rfl⟩
    · exact .inl ⟨hp, nofun, rfl, .inl rfl⟩
    · exact .inr (.inr ⟨.inl hf, rfl⟩)
  | encrypt =>
    rcases cmdEncrypt_next h with ⟨hp, -, -, -, -, _, _, -, -, rfl⟩ | ⟨hp, hs, rfl⟩ | ⟨hf, rfl⟩
    · exact .inl ⟨starts hp (by simp), nofun, rfl, .inl rfl⟩
    · exact .inr (.inl ⟨by simp, nofun, hs, hp, rfl⟩)
    · exact .inr (.inr ⟨.inl hf, rfl⟩)
  | decrypt =>
    rcases cmdDecrypt_next h with
      ⟨hp, -, -, -, -, -, _, _, -, -, ⟨-, rfl⟩ | ⟨-, rfl⟩⟩ | ⟨hp, hs, rfl⟩ | ⟨hf, rfl⟩
    · exact .inl ⟨starts hp (by simp), nofun, rfl, .inl rfl⟩
    · exact .inl ⟨starts hp (by simp), nofun, rfl, .inr ⟨rfl, rfl⟩⟩
    · exact .inr (.inl ⟨by simp, nofun, hs, hp, rfl⟩)
    · exact .inr (.inr ⟨.inl hf, rfl⟩)
  | mac =>
    rcases cmdMac_next h with ⟨hp, -, -, -, -, _, -, rfl⟩ | ⟨hp, hs, rfl⟩ | ⟨hf, rfl⟩
    · exact .inl ⟨starts hp (by simp), nofun, rfl, .inl rfl⟩
    · exact .inr (.inl ⟨by simp, nofun, hs, hp, rfl⟩)
    · exact .inr (.inr ⟨.inl hf, rfl⟩)
  | stream =>
    rcases cmdStream_next h with ⟨hp, -, -, -, rfl⟩ | ⟨hp, -, -, -, -, -, rfl⟩ | ⟨hp, h0, hs, rfl⟩ | ⟨hf, rfl⟩
    · exact .inl ⟨starts hp (by simp), nofun, rfl, .inl rfl⟩
    · exact .inl ⟨starts hp (by simp), nofun, rfl, .inl rfl⟩
    · exact .inr (.inl ⟨by simp, fun _ => h0, hs, hp, rfl⟩)
    · exact .inr (.inr ⟨.inl hf, rfl⟩)

/-- The phases outside `allowed(c)` (41_cipherstate.md R60). -/
theorem phase_of_not_allows {i : Instr} {s : State} (h : s.phase.allows i = false) :
    (i ∈ [.init, .encrypt, .decrypt, .mac, .stream] ∧ s.phase ≠ .uninitialized) ∨
    ((i ∈ [.absorb, .enc, .dec, .final] ∨ ∃ n, i = .decp n) ∧ s.phase ≠ .initialized ∧ s.phase ≠ .processing) := by
  have idle (hp : s.phase.takesData = false) : s.phase ≠ .initialized ∧ s.phase ≠ .processing := by
    rw [← not_or, ← takesData_iff, hp]
    exact Bool.false_ne_true
  cases i with
  | init | encrypt | decrypt | mac | stream => exact .inl ⟨by simp, beq_eq_false_iff_ne.1 h⟩
  | absorb | enc | dec | final => exact .inr ⟨.inl (by simp), idle h⟩
  | decp n => exact .inr ⟨.inr ⟨n, rfl⟩, idle h⟩

/-- Settles O33: the three ways a command can end, the first of them read off the table row by row. -/
theorem phaseMovesAlongTheTable : Obligations.PhaseMovesAlongTheTable := by
  intro i s t h
  rcases exec_ways h with ⟨hp, h0, hph, herr⟩ | ⟨hi, hstream, hs, hp, rfl⟩ | ⟨hf, rfl⟩
  · cases i with
    | init =>
      exact .inl ⟨rfl, beq_iff_eq.1 hp, hph, by simpa using herr⟩
    | absorb | enc | dec =>
      exact .inr (.inl ⟨.inl (by simp), takesData_iff.1 hp, hph, by simpa using herr⟩)
    | decp n =>
      have hn : n ≠ 0#4 := fun e => h0 (congrArg Instr.decp e)
      exact .inr (.inl ⟨.inr ⟨n, hn, rfl⟩, takesData_iff.1 hp, hph, by simpa using herr⟩)
    | final =>
      exact .inr (.inr (.inl ⟨rfl, takesData_iff.1 hp, hph, by simpa using herr⟩))
    | encrypt | decrypt | mac =>
      exact .inr (.inr (.inr (.inl ⟨by simp, nofun, beq_iff_eq.1 hp, hph, herr⟩)))
    | stream =>
      have hok : t.err = .ok := by simpa using herr
      by_cases hlen : s.inBytes = 0#64
      · exact .inr (.inr (.inr (.inr (.inr (.inl
          ⟨rfl, hlen, beq_iff_eq.1 hp, hph.trans (if_pos hlen), hok⟩)))))
      · exact .inr (.inr (.inr (.inl
          ⟨by simp, fun _ => hlen, beq_iff_eq.1 hp, hph.trans (if_neg hlen), .inl hok⟩)))
  · exact .inr (.inr (.inr (.inr (.inl ⟨hi, hstream, hs, hp, hp, rfl⟩))))
  · have cause := hf.imp (phase_of_not_allows (i := i)) id
    exact .inr (.inr (.inr (.inr (.inr (.inr ⟨or_assoc.1 cause, rfl, rfl⟩)))))

/-- Settles O48: each primitive command's effect is a few updates of the state, none of which writes what is listed. -/
theorem primitiveFrame : Obligations.PrimitiveFrame := by
  intro i s t hi h hf
  rw [exec_eq_execWith] at h
  cases i with
  | init =>
    rcases cmdInit_next h with ⟨-, -, rfl⟩ | ⟨-, -, rfl⟩ | ⟨-, rfl⟩
    · simp
    · simp
    · exact absurd rfl hf
  | absorb =>
    rcases cmdAbsorb_next h with ⟨-, -, rfl⟩ | ⟨-, rfl⟩
    · simp
    · exact absurd rfl hf
  | enc =>
    rcases cmdEnc_next h with ⟨-, -, rfl⟩ | ⟨-, rfl⟩
    · simp
    · exact absurd rfl hf
  | dec =>
    rcases cmdDec_next h with ⟨-, -, rfl⟩ | ⟨-, rfl⟩
    · simp
    · exact absurd rfl hf
  | decp n =>
    rcases cmdDecp_next h with ⟨-, -, -, rfl⟩ | ⟨-, rfl⟩
    · simp
    · exact absurd rfl hf
  | final =>
    rcases cmdFinal_next h with ⟨-, -, -, rfl⟩ | ⟨-, rfl⟩
    · simp
    · exact absurd rfl hf
  | encrypt | decrypt | mac | stream => simp at hi

end Sys2Proof.Machine
end

section
/-! PROOF. Where each macro-command completes, what it leaves alone, and the launches without meaning (42_modes.md R73 to
R78, 60_exceptions.md R82, R83, R92). -/

namespace Sys2Proof.Machine

/-! ### A launch that passes every check on registers -/

/-- What every check on registers asks of a macro-command's launch: one with meaning (42_modes.md R78, 20_memory.md
R35), with a key and a nonce of the right sizes. -/
structure State.LaunchReady (s : State) : Prop where
  phase : s.phase = .uninitialized
  keyReady : s.KeyReady
  overlap : s.overlap = false
  adBytes : s.adBytes.toNat < 2 ^ 61
  inBytes : s.inBytes.toNat < 2 ^ 61

theorem allows_of_uninitialized {i : Instr} {s : State} (hi : i ∈ [.encrypt, .decrypt, .mac, .stream])
    (hp : s.phase = .uninitialized) : s.phase.allows i = true := by
  fin_cases hi <;> simp [Phase.allows, hp]

/-- A macro-command allowed in its phase is its launch checks and then its work. -/
theorem exists_exec_eq_checkLaunch {i : Instr} {s : State} (hi : i ∈ [.encrypt, .decrypt, .mac, .stream])
    (hp : s.phase = .uninitialized) : ∃ k, exec i s = checkLaunch s k := by
  have hph := allows_of_uninitialized hi hp
  fin_cases hi <;> exact ⟨_, checkPhase_pos hph _⟩

/-- In such a launch the checks pass. -/
theorem State.LaunchReady.passes {i : Instr} {s : State} (h : s.LaunchReady)
    (hi : i ∈ [.encrypt, .decrypt, .mac, .stream]) (k : Result) : checkPhase i s (checkLaunch s k) = k :=
  (checkPhase_pos (allows_of_uninitialized hi h.phase) _).trans (checkLaunch_pos h.adBytes h.inBytes h.overlap k)

section Ready

variable {s : State} (h : s.LaunchReady)

include h

theorem State.LaunchReady.exec_encrypt {ad msg : List Byte} (had : s.ad.readBytes 0 s.adBytes.toNat = some ad)
    (hmsg : s.inp.readBytes 0 s.inBytes.toNat = some msg) :
    let r := encryptBytes Config.params s.key s.nonce ad msg
    exec .encrypt s =
      .next (complete .encrypt (clearKeyPorts (putTag r.tag (putOut r.text { s with S := r.cipher.S })))) :=
  (h.passes (by simp) _).trans <| (checkedKey_ready h.keyReady _).trans <|
    (withBuffer_some had _).trans (withBuffer_some hmsg _)

theorem State.LaunchReady.exec_decrypt {ad ct : List Byte} (htag : s.written.tagIn = true)
    (had : s.ad.readBytes 0 s.adBytes.toNat = some ad) (hct : s.inp.readBytes 0 s.inBytes.toNat = some ct)
    (heq : s.tagIn = (decryptBytes Config.params s.key s.nonce ad ct).tag) :
    exec .decrypt s =
      .next (complete .decrypt (decryptWork (decryptBytes Config.params s.key s.nonce ad ct) s)) :=
  (h.passes (by simp) _).trans <| (checkedKey_ready h.keyReady _).trans <|
    (withPort_of_some (tagInOperand_ready htag) _).trans <| (withBuffer_some had _).trans <|
    (withBuffer_some hct _).trans (if_pos ((ctEq_tags _ _).2 heq))

theorem State.LaunchReady.exec_mac {data : List Byte} (hdata : s.ad.readBytes 0 s.adBytes.toNat = some data) :
    let r := macBytes Config.params s.key s.nonce data
    exec .mac s =
      .next (complete .mac (clearKeyPorts (putTag r.tag { s with S := r.cipher.S, outLen := 0 }))) :=
  (h.passes (by simp) _).trans ((checkedKey_ready h.keyReady _).trans (withBuffer_some hdata _))

theorem State.LaunchReady.exec_stream (h0 : s.inBytes ≠ 0#64) :
    let r := streamBytes Config.params s.key s.nonce s.inBytes.toNat
    exec .stream s = .next (complete .stream (clearKeyPorts (putOut r.text { s with S := r.cipher.S }))) :=
  (h.passes (by simp) _).trans ((if_neg h0).trans (checkedKey_ready h.keyReady _))

end Ready

/-! ### The whole next state of each -/

/-- What a macro-command that writes its text to `OUT` leaves there, by the number of bytes it was asked for. -/
theorem putOut_of_length {x : List Byte} {n : Nat} (hx : x.length = n) (s : State) :
    putOut x s = { s with out := s.out.writeBytes 0 x, outLen := n } := by subst hx; rfl

/-- Settles O19: the checks pass, and the text is as long as the message. -/
theorem encryptResult : Obligations.EncryptResult := by
  intro s ad msg hp hk ho ha hn had hmsg r
  have hlen : r.text.length = s.inBytes.toNat :=
    (encryptBytes_text_length ..).trans (Memory.readBytes_length hmsg)
  refine ⟨hlen, (State.LaunchReady.exec_encrypt ⟨hp, hk, ho, ha, hn⟩ had hmsg).trans ?_⟩
  rw [putOut_of_length hlen]
  rfl

/-- Settles O20: the comparator finds the tags equal, and the text is as long as the ciphertext. -/
theorem decryptAccepts : Obligations.DecryptAccepts := by
  intro s ad ct hp hk ho ha hn htag had hct r heq
  have hlen : r.text.length = s.inBytes.toNat :=
    (decryptBytes_text_length ..).trans (Memory.readBytes_length hct)
  refine ⟨hlen, (State.LaunchReady.exec_decrypt ⟨hp, hk, ho, ha, hn⟩ htag had hct heq).trans ?_⟩
  rw [complete_decryptWork, putOut_of_length hlen]
  rfl

/-- Settles O22: the checks pass. -/
theorem macResult : Obligations.MacResult := fun _ _ hp hk ho ha hn hdata =>
  State.LaunchReady.exec_mac ⟨hp, hk, ho, ha, hn⟩ hdata

theorem complete_stream_of_zero {s : State} (h : s.inBytes = 0#64) :
    complete .stream s = { s with phase := .uninitialized, err := .ok } := by
  rw [complete, nextPhase, if_pos h]

theorem complete_stream_of_ne {s : State} (h : s.inBytes ≠ 0#64) :
    complete .stream s = { s with phase := .finalized, err := .ok } := by
  rw [complete, nextPhase, if_neg h]

/-- Settles O23: the checks pass, and the text is as long as asked for. -/
theorem streamResult : Obligations.StreamResult := by
  intro s hp hk ho h0 ha hn r
  have hlen : r.text.length = s.inBytes.toNat := streamBytes_text_length ..
  refine ⟨hlen, (State.LaunchReady.exec_stream ⟨hp, hk, ho, ha, hn⟩ h0).trans ?_⟩
  rw [complete_stream_of_ne, putOut_of_length hlen]
  · rfl
  · exact h0

/-- Settles O24: it completes before the size check. -/
theorem streamOfNothing : Obligations.StreamOfNothing := by
  intro s hp ho ha h0
  have hn : s.inBytes.toNat < 2 ^ 61 := by simp [h0]
  refine (checkPhase_pos (allows_of_uninitialized (i := .stream) (by simp) hp) _).trans
    ((checkLaunch_pos ha hn ho _).trans ((if_pos h0).trans ?_))
  rw [complete_stream_of_zero, ← hp]
  exact h0

/-! ### Launches without meaning -/

/-- Settles O38: every macro-command begins with the launch checks. -/
theorem launchesWithoutMeaning : Obligations.LaunchesWithoutMeaning := by
  refine ⟨fun i s hp hi hlen => ?_, fun i s hp hi ha hn ho => ?_, fun s w rest h => step_of_host_cons h⟩
  · obtain ⟨k, hexec⟩ := exists_exec_eq_checkLaunch hi hp
    rw [hexec, checkLaunch_length hlen]
  · obtain ⟨k, hexec⟩ := exists_exec_eq_checkLaunch hi hp
    rw [hexec, checkLaunch_overlap ha hn ho]

/-! ### What a macro-command leaves alone -/

/-- Bytes stored from address 0 on leave every byte past them. -/
theorem Memory.read_writeBytes_past (m : Memory) {x : List Byte} {n a : Nat} (hx : x.length = n)
    (ha : blockAddr 0 + n ≤ a) : (m.writeBytes 0 x).read a = m.read a := by
  refine m.read_writeBytes_outside x 0 a ?_
  simp only [blockAddr] at ha
  omega

/-- Settles O49: each way to end is a few updates of the state, none of which writes what is listed, and `OUT` takes
`INBYTES` bytes from address 0 on. -/
theorem macroFrame : Obligations.MacroFrame := by
  intro i s t hi h hf
  rw [exec_eq_execWith] at h
  fin_cases hi
  · rcases cmdEncrypt_next h with ⟨-, -, -, -, -, ad, msg, -, hmsg, rfl⟩ | ⟨-, -, rfl⟩ | ⟨-, rfl⟩
    · have hlen := (encryptBytes_text_length Config.params s.key s.nonce ad msg).trans (Memory.readBytes_length hmsg)
      have hout := fun a => s.out.read_writeBytes_past (a := a) hlen
      simpa using hout
    · simp
    · exact absurd rfl hf
  · rcases cmdDecrypt_next h with ⟨-, -, -, -, -, -, ad, ct, -, hct, hend⟩ | ⟨-, -, rfl⟩ | ⟨-, rfl⟩
    · have hlen := (decryptBytes_text_length Config.params s.key s.nonce ad ct).trans (Memory.readBytes_length hct)
      have hout := fun a => s.out.read_writeBytes_past (a := a) hlen
      rcases hend with ⟨-, rfl⟩ | ⟨-, rfl⟩
      · rw [complete_decryptWork]
        simpa using hout
      · rw [authFail_decryptWork]
        have hzeros : (List.replicate s.inBytes.toNat 0#8).length = s.inBytes.toNat := List.length_replicate
        have hout' := fun m a => Memory.read_writeBytes_past m (a := a) hzeros
        simpa +contextual [hout'] using hout
    · simp
    · exact absurd rfl hf
  · rcases cmdMac_next h with ⟨-, -, -, -, -, data, -, rfl⟩ | ⟨-, -, rfl⟩ | ⟨-, rfl⟩
    · simp
    · simp
    · exact absurd rfl hf
  · rcases cmdStream_next h with ⟨-, -, -, -, rfl⟩ | ⟨-, -, -, -, -, -, rfl⟩ | ⟨-, -, -, rfl⟩ | ⟨-, rfl⟩
    · simp
    · have hlen := streamBytes_text_length Config.params s.key s.nonce s.inBytes.toNat
      have hout := fun a => s.out.read_writeBytes_past (a := a) hlen
      simpa using hout
    · simp
    · exact absurd rfl hf

end Sys2Proof.Machine
end

section
/-! PROOF. The Blocks of a buffer and the bodies of the modes on byte strings (42_modes.md R73 to R80): padding, how many
UPDATEs, that DECRYPT undoes ENCRYPT, and that MAC and STREAM are ENCRYPT of nothing and of zeros. -/

namespace Sys2Proof.Machine

/-! ### A byte string is full Blocks and a rest -/

/-- Induction over a byte string, Block by Block: it is shorter than a Block, or a Block and more. -/
theorem blocks_induction {P : List Byte → Prop} (short : ∀ x : List Byte, x.length < 16 → P x)
    (full : ∀ (b : Block) (x : List Byte), P x → P (toBytes b ++ x)) (x : List Byte) : P x := by
  by_cases h : x.length < 16
  · exact short x h
  · have hsplit : toBytes (ofBytes (x.take 16)) ++ x.drop 16 = x := by
      rw [toBytes_ofBytes _ (by rw [List.length_take]; omega), List.take_append_drop]
    rw [← hsplit]
    exact full _ _ (blocks_induction short full (x.drop 16))
termination_by x.length
decreasing_by rw [List.length_drop]; omega

@[simp] theorem take_toBytes_append (b : Block) (x : List Byte) : (toBytes b ++ x).take 16 = toBytes b :=
  List.take_left' (toBytes_length b)

@[simp] theorem drop_toBytes_append (b : Block) (x : List Byte) : (toBytes b ++ x).drop 16 = x :=
  List.drop_left' (toBytes_length b)

theorem blocksOf_append (b : Block) (x : List Byte) : blocksOf (toBytes b ++ x) = b :: blocksOf x := by
  have hne : toBytes b ++ x ≠ [] := List.ne_nil_of_length_pos (by simp)
  rw [blocksOf_cons _ hne, take_toBytes_append, drop_toBytes_append, ofBytes_toBytes]

theorem blocksOf_short {x : List Byte} (hne : x ≠ []) (h : x.length < 16) : blocksOf x = [ofBytes x] := by
  rw [blocksOf_cons _ hne, List.take_of_length_le h.le, List.drop_eq_nil_of_le h.le, blocksOf_nil]

theorem padTo_append (b : Block) (x : List Byte) : padTo 16 (toBytes b ++ x) = toBytes b ++ padTo 16 x := by
  have hmod : (toBytes b ++ x).length % 16 = x.length % 16 := by
    rw [List.length_append, toBytes_length, Nat.add_mod_left]
  unfold padTo
  rw [hmod]
  split
  · rfl
  · exact List.append_assoc ..

/-- The bytes of a string's Blocks are the zero-padded string. -/
theorem flatMap_blocksOf (x : List Byte) : (blocksOf x).flatMap toBytes = padTo 16 x := by
  induction x using blocks_induction with
  | short x h =>
    by_cases hne : x = []
    · subst hne; rfl
    · rw [blocksOf_short hne h, List.flatMap_singleton, toBytes_ofBytes_le x h.le,
        padTo_of_lt x (List.length_pos_of_ne_nil hne) h.le]
  | full b x ih => rw [blocksOf_append, List.flatMap_cons, ih, padTo_append]

/-! ### The Blocks of a buffer (R73) -/

theorem pieces_getElem? {k j : Nat} (h : j < k) (x : List Byte) :
    (pieces k x)[j]? = some ((x.drop (16 * j)).take 16) := by
  induction k generalizing j x with
  | zero => omega
  | succ k ih =>
    cases j with
    | zero => rfl
    | succ j =>
      rw [pieces, List.getElem?_cons_succ, ih (by omega), List.drop_drop, show 16 + 16 * j = 16 * (j + 1) by omega]

/-- A part of a range that is read is read. -/
theorem Memory.readBytes_slice {m : Memory} {a n : Nat} {x : List Byte} (h : m.readBytes a n = some x) {i k : Nat}
    (hik : i + k ≤ n) : m.readBytes (a + i) k = some ((x.drop i).take k) := by
  obtain ⟨hlen, hread⟩ := (m.readBytes_eq_some a n x).1 h
  refine (m.readBytes_eq_some _ _ _).2 ⟨by rw [List.length_take, List.length_drop]; omega, fun t ht => ?_⟩
  rw [List.getElem?_take_of_lt ht, List.getElem?_drop, ← hread (i + t) (by omega), Nat.add_assoc]

/-- The piece at `addr(j)` of the stream in a buffer. -/
theorem Memory.readBytes_piece {m : Memory} {len : Nat} {x : List Byte} (h : m.readBytes 0 len = some x) {j : Nat}
    (hj : 16 * j ≤ len) : m.readBytes (blockAddr j) (blockSize len j) = some ((x.drop (16 * j)).take 16) := by
  have hslice := Memory.readBytes_slice h (i := 16 * j) (k := blockSize len j) (by rw [blockSize]; omega)
  have htake : (x.drop (16 * j)).take (blockSize len j) = (x.drop (16 * j)).take 16 := by
    rw [List.take_eq_take_iff, List.length_drop, Memory.readBytes_length h, blockSize]
    omega
  rwa [htake, Nat.zero_add] at hslice

/-- Settles O45: the pieces are at the addresses, and their Blocks' bytes are the padded contents. -/
theorem blockAddressing : Obligations.BlockAddressing := by
  intro m len x h
  have hlen := Memory.readBytes_length h
  refine ⟨by rw [blocksOf_length, hlen, blockCount], fun j hj => ?_, ?_⟩
  · rw [bufferBlock, Memory.readBytes_piece h (by omega), blocksOf, List.getElem?_map,
      pieces_getElem? (by rwa [hlen, blockCount])]
  · rw [flatMap_blocksOf]
    exact (zeroPad_of_bytes (by decide : 0 < 16) x).symm

/-! ### How many UPDATEs -/

theorem Cipher.init_updates (p : Params) (key nonce : List Byte) : (Cipher.init p key nonce).updates = 32 := by
  rw [Cipher.init, Cipher.diffuse_eq]
  rfl

theorem Cipher.decPartial_updates (p : Params) (cn : List Byte) (n : Nat) (c : Cipher) :
    (c.decPartial p cn n).1.updates = c.updates + 1 := by
  rw [Cipher.decPartial, Cipher.dec_eq]

theorem absorbAll_updates (p : Params) (xs : List Block) (c : Cipher) :
    (absorbAll p xs c).updates = c.updates + xs.length := by
  induction xs generalizing c with
  | nil => rfl
  | cons x xs ih =>
    simp only [absorbAll, ih, Cipher.absorb_eq, List.length_cons]
    omega

theorem encAll_updates (p : Params) (ms : List Block) (c : Cipher) :
    (encAll p ms c).1.updates = c.updates + ms.length := by
  induction ms generalizing c with
  | nil => rfl
  | cons m ms ih =>
    simp only [encAll, ih, Cipher.enc_eq, List.length_cons]
    omega

theorem decAll_updates (p : Params) (cts : List Block) (c : Cipher) :
    (decAll p cts c).1.updates = c.updates + cts.length := by
  induction cts generalizing c with
  | nil => rfl
  | cons ct cts ih =>
    simp only [decAll, ih, Cipher.dec_eq, List.length_cons]
    omega

theorem decRest_updates (p : Params) (rest : List Byte) (c : Cipher) :
    (decRest p rest c).1.updates = c.updates + if rest.length = 0 then 0 else 1 := by
  unfold decRest
  split
  · rfl
  · exact Cipher.decPartial_updates ..

/-- Settles O10: one UPDATE a Block, and 32 for each of INIT and FINAL. -/
theorem updatesPerCommand : Obligations.UpdatesPerCommand := by
  intro p key nonce ad msg x c a b len
  refine ⟨Cipher.init_updates .., by rw [Cipher.absorb_eq], by rw [Cipher.enc_eq], by rw [Cipher.dec_eq],
    Cipher.decPartial_updates .., by rw [Cipher.finalize_eq], ?_, ?_, ?_, ?_⟩
  · simp only [encryptBytes, Cipher.finalize_eq, encAll_updates, absorbAll_updates, Cipher.init_updates,
      blocksOf_length, blockCount]
    omega
  · simp only [decryptBytes, Cipher.finalize_eq, decRest_updates, decAll_updates, absorbAll_updates,
      Cipher.init_updates, blocksOf_length, blockCount, List.length_map, pieces_length, List.length_drop]
    split <;> omega
  · simp only [macBytes, Cipher.finalize_eq, absorbAll_updates, Cipher.init_updates, blocksOf_length, blockCount]
    omega
  · simp only [streamBytes, Cipher.finalize_eq, encAll_updates, Cipher.init_updates, List.length_replicate, blockCount]
    omega

/-! ### The data parts of ENCRYPT and DECRYPT -/

/-- ENCRYPT's data part (R74): the unit after the message, and the ciphertext. -/
def encBytes (p : Params) (msg : List Byte) (c : Cipher) : Cipher × List Byte :=
  let e := encAll p (blocksOf msg) c
  (e.1, truncateBits (bytesOf e.2) (8 * msg.length))

/-- DECRYPT's data part (R75): the unit after the ciphertext, and the recovered message. -/
def decBytes (p : Params) (ct : List Byte) (c : Cipher) : Cipher × List Byte :=
  let d := decAll p ((pieces (ct.length / 16) ct).map ofBytes) c
  let r := decRest p (ct.drop (16 * (ct.length / 16))) d.1
  (r.1, bytesOf d.2 ++ r.2)

/-- ENCRYPT is INIT and ABSORBs, the data part, FINAL. -/
theorem encryptBytes_eq (p : Params) (key nonce ad msg : List Byte) :
    encryptBytes p key nonce ad msg =
      let e := encBytes p msg (absorbAll p (blocksOf ad) (Cipher.init p key nonce))
      let f := e.1.finalize p (bitLength ad.length) (bitLength msg.length)
      { cipher := f.1, text := e.2, tag := f.2 } := by
  rw [encryptBytes]
  rfl

/-- DECRYPT is INIT and ABSORBs, the data part, FINAL. -/
theorem decryptBytes_eq (p : Params) (key nonce ad ct : List Byte) :
    decryptBytes p key nonce ad ct =
      let d := decBytes p ct (absorbAll p (blocksOf ad) (Cipher.init p key nonce))
      let f := d.1.finalize p (bitLength ad.length) (bitLength ct.length)
      { cipher := f.1, text := d.2, tag := f.2 } := by
  rw [decryptBytes]
  rfl

theorem encBytes_nil (p : Params) (c : Cipher) : encBytes p [] c = (c, []) := rfl

/-- A last piece shorter than a Block is one ENC of the padded piece. -/
theorem encBytes_short (p : Params) {x : List Byte} (hne : x ≠ []) (h : x.length < 16) (c : Cipher) :
    encBytes p x c = ((c.enc p (ofBytes x)).1, (toBytes (c.enc p (ofBytes x)).2).take x.length) := by
  simp [encBytes, blocksOf_short hne h, encAll, bytesOf, truncateBits_aligned]

theorem encBytes_append (p : Params) (b : Block) (x : List Byte) (c : Cipher) :
    encBytes p (toBytes b ++ x) c =
      ((encBytes p x (c.enc p b).1).1, toBytes (c.enc p b).2 ++ (encBytes p x (c.enc p b).1).2) := by
  have hlen (y : Block) : (toBytes b ++ x).length = (toBytes y).length + x.length := by simp
  simp only [encBytes, blocksOf_append, encAll, bytesOf, truncateBits_aligned, List.flatMap_cons,
    hlen (c.enc p b).2, List.take_length_add_append]

theorem encBytes_text_length (p : Params) (msg : List Byte) (c : Cipher) :
    (encBytes p msg c).2.length = msg.length := by
  simp only [encBytes, truncateBits_aligned, bytesOf, List.length_take, bytesOf_length, encAll_length,
    blocksOf_length, blockCount]
  omega

theorem decRest_of_length_eq_zero {p : Params} {rest : List Byte} {c : Cipher} (h : rest.length = 0) :
    decRest p rest c = (c, []) := if_pos h

/-- A last piece shorter than a Block is one DECP, if it has a byte. -/
theorem decBytes_short (p : Params) {x : List Byte} (h : x.length < 16) (c : Cipher) :
    decBytes p x c = decRest p x c := by
  simp [decBytes, Nat.div_eq_of_lt h, pieces, decAll, bytesOf]

theorem decBytes_append (p : Params) (b : Block) (x : List Byte) (c : Cipher) :
    decBytes p (toBytes b ++ x) c =
      ((decBytes p x (c.dec p b).1).1, toBytes (c.dec p b).2 ++ (decBytes p x (c.dec p b).1).2) := by
  have hfull : (toBytes b ++ x).length / 16 = x.length / 16 + 1 := by
    rw [List.length_append, toBytes_length]
    omega
  have hrest : (toBytes b ++ x).drop (16 * (x.length / 16 + 1)) = x.drop (16 * (x.length / 16)) := by
    rw [Nat.mul_succ, Nat.add_comm, ← List.drop_drop, drop_toBytes_append]
  simp only [decBytes, hfull, hrest, pieces, take_toBytes_append, drop_toBytes_append, List.map_cons, ofBytes_toBytes,
    decAll, bytesOf, List.flatMap_cons, List.append_assoc]

/-- DECP of the first bytes of an encrypted padded piece gives the piece back and leaves the same unit. -/
theorem decRest_enc (p : Params) {x : List Byte} (hne : x ≠ []) (h : x.length ≤ 16) (c : Cipher) :
    decRest p ((toBytes (c.enc p (ofBytes x)).2).take x.length) c = ((c.enc p (ofBytes x)).1, x) := by
  have hlen := length_take_toBytes (c.enc p (ofBytes x)).2 h
  have hbody := Cipher.decPartial_eq p _ c (hlen.trans_le h)
  have htext := take_toBytes_ofBytes_append h []
  rw [List.append_nil] at htext
  rw [decRest, if_neg (by rw [hlen]; exact (List.length_pos_of_ne_nil hne).ne'), hbody, hlen, Cipher.enc_eq,
    partialPlain_of_padded p c.S h, htext]

/-- DECRYPT's data part undoes ENCRYPT's and leaves the same unit (R80). -/
theorem decBytes_encBytes (p : Params) (msg : List Byte) (c : Cipher) :
    decBytes p (encBytes p msg c).2 c = ((encBytes p msg c).1, msg) := by
  induction msg using blocks_induction generalizing c with
  | short x h =>
    rw [decBytes_short p (by rwa [encBytes_text_length])]
    by_cases hne : x = []
    · subst hne; rfl
    · rw [encBytes_short p hne h, decRest_enc p hne h.le]
  | full b x ih => rw [encBytes_append, decBytes_append, Cipher.dec_enc, ih]

/-- DECRYPT of ENCRYPT's text gives the message back, with the same unit and the same tag (R80). -/
theorem decryptBytes_encryptBytes (p : Params) (key nonce ad msg : List Byte) :
    decryptBytes p key nonce ad (encryptBytes p key nonce ad msg).text =
      { encryptBytes p key nonce ad msg with text := msg } := by
  simp only [decryptBytes_eq, encryptBytes_eq, decBytes_encBytes, encBytes_text_length]

/-! ### MAC and STREAM -/

/-- MAC computes what ENCRYPT of no message does (R76). -/
theorem macBytes_eq_encryptBytes (p : Params) (key nonce data : List Byte) :
    macBytes p key nonce data = encryptBytes p key nonce data [] := by
  rw [encryptBytes_eq, encBytes_nil, macBytes]
  rfl

/-- STREAM computes what ENCRYPT of zeros without associated data does (R77). -/
theorem streamBytes_eq_encryptBytes (p : Params) (key nonce : List Byte) (len : Nat) :
    streamBytes p key nonce len = encryptBytes p key nonce [] (List.replicate len 0#8) := by
  rw [encryptBytes_eq, encBytes, blocksOf_zeros, List.length_replicate, streamBytes]
  rfl

/-! ### The statements about two macro-commands -/

/-- Where ENCRYPT ends in OK its launch was ready, and it did its work. -/
theorem encrypt_next_ok {s t : State} (h : exec .encrypt s = .next t) (hok : t.err = .ok) :
    s.LaunchReady ∧ ∃ ad msg, s.ad.readBytes 0 s.adBytes.toNat = some ad ∧
      s.inp.readBytes 0 s.inBytes.toNat = some msg ∧
      t = complete .encrypt (clearKeyPorts (putTag (encryptBytes Config.params s.key s.nonce ad msg).tag
        (putOut (encryptBytes Config.params s.key s.nonce ad msg).text
          { s with S := (encryptBytes Config.params s.key s.nonce ad msg).cipher.S }))) := by
  rw [exec_eq_execWith] at h
  rcases cmdEncrypt_next h with ⟨hp, ha, hn, ho, hk, work⟩ | ⟨-, -, rfl⟩ | ⟨-, rfl⟩
  · exact ⟨⟨hp, hk, ho, ha, hn⟩, work⟩
  · cases hok
  · cases hok

/-- Buffers with the same bytes in a range read the same there. -/
theorem Memory.readBytes_congr {m m' : Memory} {n : Nat} (h : ∀ a, a < n → m.read a = m'.read a) {x : List Byte}
    (hx : m'.readBytes 0 n = some x) : m.readBytes 0 n = some x := by
  obtain ⟨hlen, hread⟩ := (m'.readBytes_eq_some 0 n x).1 hx
  refine (m.readBytes_eq_some 0 n x).2 ⟨hlen, fun i hi => ?_⟩
  rw [← hread i hi, Nat.zero_add, h i hi]

/-- A string stored at address 0 is read back byte by byte as from a buffer that holds it there. -/
theorem Memory.read_writeBytes_of_readBytes {m m' : Memory} {n : Nat} {x : List Byte} (hx : m'.readBytes 0 n = some x)
    {a : Nat} (ha : a < n) : (m.writeBytes 0 x).read a = m'.read a := by
  obtain ⟨hlen, hread⟩ := (m'.readBytes_eq_some 0 n x).1 hx
  have hbyte := hread a ha
  rw [Nat.zero_add] at hbyte
  rw [Memory.read_writeBytes, if_pos (by omega), Nat.sub_zero, hbyte]

/-- Settles O27: the bytes DECRYPT reads are ENCRYPT's text, which it turns back, with the tag it expects. -/
theorem roundTrip : Obligations.RoundTrip := by
  intro s t u _ h hok hup huo hkl hk hnl hn hab hib had hin hwt htag
  obtain ⟨hs, ad, msg, hsad, hsmsg, rfl⟩ := encrypt_next_ok h hok
  have hlen := (encryptBytes_text_length Config.params s.key s.nonce ad msg).trans (Memory.readBytes_length hsmsg)
  have hu : u.LaunchReady :=
    { phase := hup, overlap := huo, adBytes := hab ▸ hs.adBytes, inBytes := hib ▸ hs.inBytes
      keyReady := ⟨hkl ▸ hs.keyReady.keyLen, hk ▸ hs.keyReady.key, hnl ▸ hs.keyReady.nonceLen,
        hn ▸ hs.keyReady.nonce⟩ }
  have huad : u.ad.readBytes 0 u.adBytes.toNat = some ad := by
    rw [hab]
    exact Memory.readBytes_congr had hsad
  have huct : u.inp.readBytes 0 u.inBytes.toNat = some (encryptBytes Config.params s.key s.nonce ad msg).text := by
    rw [hib]
    refine Memory.readBytes_congr hin ?_
    have hback := s.out.readBytes_writeBytes 0 (encryptBytes Config.params s.key s.nonce ad msg).text
    rwa [hlen] at hback
  have hr := decryptBytes_encryptBytes Config.params s.key s.nonce ad msg
  rw [← hk, ← hn] at hr huct
  have heq : u.tagIn = (decryptBytes Config.params u.key u.nonce ad
      (encryptBytes Config.params u.key u.nonce ad msg).text).tag := by
    rw [hr, htag, hk, hn]
    rfl
  refine ⟨_, hu.exec_decrypt hwt huad huct heq, rfl, rfl, ?_, fun a ha => ?_⟩
  · rw [complete_decryptWork, hr, hk, hn]
    rfl
  · rw [complete_decryptWork, hr]
    exact Memory.read_writeBytes_of_readBytes hsmsg ha

/-- Settles O28: the two bodies compute the same. -/
theorem macIsEncryptOfNothing : Obligations.MacIsEncryptOfNothing := by
  intro s t _ h hok
  rw [exec_eq_execWith] at h
  rcases cmdMac_next h with ⟨hp, ha, -, ho, hk, data, hdata, rfl⟩ | ⟨-, -, rfl⟩ | ⟨-, rfl⟩
  · have hready : State.LaunchReady { s with inBytes := 0#64 } :=
      { phase := hp, keyReady := { hk with }, overlap := ho, adBytes := ha, inBytes := Nat.two_pow_pos 61 }
    refine ⟨_, hready.exec_encrypt hdata rfl, ?_⟩
    rw [macBytes_eq_encryptBytes]
    exact ⟨rfl, rfl, rfl, rfl⟩
  · cases hok
  · cases hok

/-- Settles O29: the two bodies compute the same. -/
theorem streamIsEncryptOfZeros : Obligations.StreamIsEncryptOfZeros := by
  intro s t _ h0 h hok zeros hzeros
  rw [exec_eq_execWith] at h
  rcases cmdStream_next h with ⟨-, -, -, hzero, -⟩ | ⟨hp, -, ho, -, hn, hk, rfl⟩ | ⟨-, -, -, rfl⟩ | ⟨-, rfl⟩
  · exact absurd hzero h0
  · have hready : State.LaunchReady { s with adBytes := 0#64, inp := zeros } :=
      { phase := hp, keyReady := { hk with }, overlap := ho, adBytes := Nat.two_pow_pos 61, inBytes := hn }
    have hread : zeros.readBytes 0 s.inBytes.toNat = some (List.replicate s.inBytes.toNat 0#8) :=
      (zeros.readBytes_eq_some _ _ _).2 ⟨List.length_replicate, fun i hi => by
        rw [Nat.zero_add, hzeros i hi, List.getElem?_replicate_of_lt hi]⟩
    refine ⟨_, hready.exec_encrypt rfl hread, ?_⟩
    rw [streamBytes_eq_encryptBytes, complete_stream_of_ne]
    · exact ⟨rfl, rfl, rfl⟩
    · exact h0
  · cases hok
  · cases hok

end Sys2Proof.Machine
end

section
/-! PROOF. ENCRYPT and DECRYPT are their expansions into primitive commands (42_modes.md R74, R75, R79): a host that drives
the primitive commands keeps the unit of the macro-command's body in `S`. -/

namespace Sys2Proof.Machine

/-! ### One primitive command -/

/-- Between INIT and FINAL the engine holds the register of the unit `c`. -/
structure State.Holds (s : State) (c : Cipher) : Prop where
  phase : s.phase = .initialized ∨ s.phase = .processing
  S : s.S = c.S

/-- `s` after the host has written `x` to `DIN`. -/
def State.withDin (s : State) (x : List Byte) : State :=
  { s with din := overlayBytes x s.din, written := { s.written with din := max s.written.din x.length } }

theorem issueData_eq {x : List Byte} (h : x.length ≤ 16) (i : Instr) (s : State) :
    issueData i x s = exec i (s.withDin x) := by
  rw [issueData, portWrite, if_pos h]
  rfl

theorem State.Holds.withDin {s : State} {c : Cipher} (h : s.Holds c) (x : List Byte) : (s.withDin x).Holds c :=
  ⟨h.phase, h.S⟩

theorem le_withDin_written (s : State) (x : List Byte) : x.length ≤ (s.withDin x).written.din := Nat.le_max_right ..

theorem withDin_block_written (s : State) (b : Block) : 16 ≤ (s.withDin (toBytes b)).written.din := by
  simpa using le_withDin_written s (toBytes b)

/-- A Block written to `DIN` is there whole. -/
theorem withDin_block_din (s : State) (b : Block) : (s.withDin (toBytes b)).din = b := by
  simp [State.withDin, overlayBytes, List.drop_eq_nil_of_le]

/-- The bytes written to `DIN` are its first. -/
theorem take_withDin_din (s : State) {x : List Byte} (h : x.length ≤ 16) :
    (toBytes (s.withDin x).din).take x.length = x := take_toBytes_ofBytes_append h _

/-- INIT leaves the unit of its body. -/
theorem exec_init_holds {s : State} (hp : s.phase = .uninitialized) (hk : s.KeyReady) :
    ∃ t, exec .init s = .next t ∧ t.Holds (Cipher.init Config.params s.key s.nonce) := by
  have hph : s.phase.allows .init = true := by simp [Phase.allows, hp]
  exact ⟨_, (checkPhase_pos hph _).trans (checkedKey_ready hk _), .inl rfl, rfl⟩

section OneCommand

variable {s : State} {c : Cipher} (h : s.Holds c)

include h

theorem State.Holds.issueData_absorb (x : Block) :
    ∃ t, issueData .absorb (toBytes x) s = .next t ∧ t.Holds (c.absorb Config.params x) := by
  have hexec := absorbResult _ (h.withDin _).phase (withDin_block_written s x)
  refine ⟨_, (issueData_eq (toBytes_length x).le _ _).trans hexec, .inr rfl, ?_⟩
  rw [Cipher.absorb_eq, withDin_block_din, (h.withDin _).S]

theorem State.Holds.issueData_enc (m : Block) :
    ∃ t, issueData .enc (toBytes m) s = .next t ∧ t.Holds (c.enc Config.params m).1 ∧
      t.dout = (c.enc Config.params m).2 := by
  have hexec := encResult _ (h.withDin _).phase (withDin_block_written s m)
  obtain ⟨-, hS, hdout⟩ := enc_next (h.withDin _).phase hexec
  refine ⟨_, (issueData_eq (toBytes_length m).le _ _).trans hexec, ⟨.inr rfl, hS.trans ?_⟩, hdout.trans ?_⟩ <;>
    simp only [withDin_block_din, (h.withDin _).S, Cipher.enc_eq]

theorem State.Holds.issueData_dec (ct : Block) :
    ∃ t, issueData .dec (toBytes ct) s = .next t ∧ t.Holds (c.dec Config.params ct).1 ∧
      t.dout = (c.dec Config.params ct).2 := by
  have hexec := decResult _ (h.withDin _).phase (withDin_block_written s ct)
  have hm : Config.params.aesl (c.S[0] ^^^ c.S[1]) ^^^ (ct ^^^ c.S[9]) = keystream Config.params c.S ^^^ ct := by
    rw [keystream, BitVec.xor_comm ct, BitVec.xor_assoc]
  refine ⟨_, (issueData_eq (toBytes_length ct).le _ _).trans hexec, ⟨.inr rfl, ?_⟩, ?_⟩ <;>
    simp only [withDin_block_din, (h.withDin _).S, Cipher.dec_eq, hm]

/-- A trailing piece of 1 to 15 bytes is one DECP. -/
theorem State.Holds.issueData_decp {x : List Byte} (h0 : x.length ≠ 0) (h16 : x.length < 16) :
    ∃ t, issueData (.decp (BitVec.ofNat 4 x.length)) x s = .next t ∧ t.Holds (decRest Config.params x c).1 ∧
      (toBytes t.dout).take x.length = (decRest Config.params x c).2 := by
  have hn : (BitVec.ofNat 4 x.length).toNat = x.length := Nat.mod_eq_of_lt h16
  have hne : BitVec.ofNat 4 x.length ≠ 0#4 := fun e => h0 (by rw [← hn, e]; rfl)
  have hexec := exec_decp_ready hne (h.withDin x).phase (by rw [hn]; exact le_withDin_written s x)
  have hrest : decRest Config.params x c = _ := (if_neg h0).trans (Cipher.decPartial_eq Config.params x c h16.le)
  refine ⟨_, (issueData_eq h16.le _ _).trans hexec, ⟨.inr rfl, ?_⟩, ?_⟩ <;>
    simp only [hn, take_withDin_din s h16.le, (h.withDin x).S, hrest]

theorem State.Holds.issueFinal (a m : BitVec 64) :
    ∃ t, issueFinal a m s = .next t ∧ t.S = (c.finalize Config.params a m).1.S ∧
      t.tag = (c.finalize Config.params a m).2 ∧ t.phase = .finalized := by
  refine ⟨_, finalResult { s with
    adLenBits := a, msgLenBits := m, written := { s.written with adLenBits := true, msgLenBits := true } }
    h.phase rfl rfl, ?_, ?_, rfl⟩ <;>
    simp only [Cipher.finalize_eq, foldTag_eq, h.S]

end OneCommand

/-! ### A data command for each of many Blocks -/

/-- ABSORBs of many Blocks. -/
theorem State.Holds.drives_absorb {s : State} {c : Cipher} (h : s.Holds c) (xs : List Block) :
    ∃ ds t, Drives .absorb xs s ds t ∧ t.Holds (absorbAll Config.params xs c) := by
  induction xs generalizing s c with
  | nil => exact ⟨[], s, .done s, h⟩
  | cons x xs ih =>
    obtain ⟨t, hissue, ht⟩ := h.issueData_absorb x
    obtain ⟨ds, u, hdrives, hu⟩ := ih ht
    exact ⟨_, u, .more hissue hdrives, hu⟩

/-- Data commands that answer in `DOUT`, for many Blocks: `f` is the unit's body for one Block, `all` for a list. -/
theorem State.Holds.drives_each {i : Instr} {f : Block → Cipher → Cipher × Block}
    {all : List Block → Cipher → Cipher × List Block} (hnil : ∀ c, all [] c = (c, []))
    (hcons : ∀ x xs c, all (x :: xs) c = ((all xs (f x c).1).1, (f x c).2 :: (all xs (f x c).1).2))
    (hissue : ∀ {s c}, s.Holds c → ∀ x, ∃ t, issueData i (toBytes x) s = .next t ∧ t.Holds (f x c).1 ∧
      t.dout = (f x c).2)
    {s : State} {c : Cipher} (h : s.Holds c) (xs : List Block) :
    ∃ t, Drives i xs s (all xs c).2 t ∧ t.Holds (all xs c).1 := by
  induction xs generalizing s c with
  | nil => rw [hnil]; exact ⟨s, .done s, h⟩
  | cons x xs ih =>
    obtain ⟨t, hstep, ht, hdout⟩ := hissue h x
    obtain ⟨u, hdrives, hu⟩ := ih ht
    rw [hcons, ← hdout]
    exact ⟨u, .more hstep hdrives, hu⟩

theorem State.Holds.drives_enc {s : State} {c : Cipher} (h : s.Holds c) (ms : List Block) :
    ∃ t, Drives .enc ms s (encAll Config.params ms c).2 t ∧ t.Holds (encAll Config.params ms c).1 :=
  h.drives_each (fun _ => rfl) (fun _ _ _ => rfl) State.Holds.issueData_enc ms

theorem State.Holds.drives_dec {s : State} {c : Cipher} (h : s.Holds c) (cts : List Block) :
    ∃ t, Drives .dec cts s (decAll Config.params cts c).2 t ∧ t.Holds (decAll Config.params cts c).1 :=
  h.drives_each (fun _ => rfl) (fun _ _ _ => rfl) State.Holds.issueData_dec cts

/-- INIT and an ABSORB for each Block of the associated data (R74, R75). -/
theorem exec_init_drives_absorb {s : State} (hp : s.phase = .uninitialized) (hk : s.KeyReady) (ad : List Byte) :
    ∃ s1 ds s2, exec .init s = .next s1 ∧ Drives .absorb (blocksOf ad) s1 ds s2 ∧
      s2.Holds (absorbAll Config.params (blocksOf ad) (Cipher.init Config.params s.key s.nonce)) := by
  obtain ⟨s1, hinit, h1⟩ := exec_init_holds hp hk
  obtain ⟨ds, s2, hdrives, h2⟩ := h1.drives_absorb (blocksOf ad)
  exact ⟨s1, ds, s2, hinit, hdrives, h2⟩

/-- A DEC for each full Block of the ciphertext, and a DECP for a trailing piece (R75). -/
theorem State.Holds.drives_decBytes {s2 : State} {c : Cipher} (h2 : s2.Holds c) (ct : List Byte) :
    ∃ s3 s4 ms, Drives .dec ((pieces (ct.length / 16) ct).map ofBytes) s2 ms s3 ∧
      (if ct.length % 16 = 0 then s4 = s3
       else issueData (.decp (BitVec.ofNat 4 (ct.length % 16))) (ct.drop (16 * (ct.length / 16))) s3 = .next s4) ∧
      s4.Holds (decBytes Config.params ct c).1 ∧
      ms.flatMap toBytes ++ (toBytes s4.dout).take (ct.length % 16) = (decBytes Config.params ct c).2 := by
  obtain ⟨s3, hdec, h3⟩ := h2.drives_dec ((pieces (ct.length / 16) ct).map ofBytes)
  have hlen : (ct.drop (16 * (ct.length / 16))).length = ct.length % 16 := by
    rw [List.length_drop]
    omega
  simp only [decBytes]
  by_cases hrest : ct.length % 16 = 0
  · refine ⟨s3, s3, _, hdec, ?_, ?_, ?_⟩
    · rw [if_pos hrest]
    · rwa [decRest_of_length_eq_zero (hlen.trans hrest)]
    · rw [decRest_of_length_eq_zero (hlen.trans hrest), hrest]
      rfl
  · obtain ⟨s4, hdecp, h4, hdout⟩ := h3.issueData_decp (hlen.trans_ne hrest) (by omega)
    rw [hlen] at hdecp hdout
    refine ⟨s3, s4, _, hdec, ?_, h4, ?_⟩
    · rwa [if_neg hrest]
    · rw [hdout]
      rfl

/-! ### The expansions -/

/-- Settles O25: each primitive command of the expansion leaves the unit that ENCRYPT's body has there. -/
theorem encryptIsItsPrimitives : Obligations.EncryptIsItsPrimitives := by
  intro s t ad msg hp had hmsg h hok
  obtain ⟨hs, ad', msg', had', hmsg', rfl⟩ := encrypt_next_ok h hok
  obtain rfl : ad' = ad := Option.some.inj (had'.symm.trans had)
  obtain rfl : msg' = msg := Option.some.inj (hmsg'.symm.trans hmsg)
  obtain ⟨s1, ds, s2, hinit, habsorb, h2⟩ := exec_init_drives_absorb hp hs.keyReady ad'
  obtain ⟨s3, henc, h3⟩ := h2.drives_enc (blocksOf msg')
  obtain ⟨s4, hfinal, hS, htag, hph⟩ := h3.issueFinal (bitLength ad'.length) (bitLength msg'.length)
  refine ⟨s1, s2, s3, s4, ds, _, hinit, habsorb, henc, hfinal, ?_, ?_, hph.symm, ?_⟩
  · rw [hS, encryptBytes]
    rfl
  · rw [htag, encryptBytes]
    rfl
  · have hback := s.out.readBytes_writeBytes 0 (encryptBytes Config.params s.key s.nonce ad' msg').text
    have htext : (encryptBytes Config.params s.key s.nonce ad' msg').text =
        (bytesOf (encAll Config.params (blocksOf msg')
          (absorbAll Config.params (blocksOf ad') (Cipher.init Config.params s.key s.nonce))).2).take msg'.length := by
      rw [encryptBytes, truncateBits_aligned]
    rw [encryptBytes_text_length] at hback
    exact hback.trans (congrArg some htext)

/-- Where DECRYPT in Uninitialized does not end in InvalidSize its launch was ready, and it did its work. -/
theorem decrypt_next {s t : State} (hp : s.phase = .uninitialized) (h : exec .decrypt s = .next t)
    (herr : t.err ≠ .invalidSize) :
    s.LaunchReady ∧ ∃ ad ct, s.ad.readBytes 0 s.adBytes.toNat = some ad ∧
      s.inp.readBytes 0 s.inBytes.toNat = some ct ∧
      let r := decryptBytes Config.params s.key s.nonce ad ct
      t.S = r.cipher.S ∧ (t.err = .ok ↔ r.tag = s.tagIn) ∧ (t.err = .ok → t.out = s.out.writeBytes 0 r.text) := by
  rw [exec_eq_execWith] at h
  rcases cmdDecrypt_next h with ⟨-, ha, hn, ho, hk, -, ad, ct, had, hct, hend⟩ | ⟨-, -, rfl⟩ | ⟨hf, -⟩
  · refine ⟨⟨hp, hk, ho, ha, hn⟩, ad, ct, had, hct, ?_⟩
    rcases hend with ⟨heq, rfl⟩ | ⟨hne, rfl⟩
    · exact ⟨rfl, ⟨fun _ => heq.symm, fun _ => rfl⟩, fun _ => rfl⟩
    · exact ⟨rfl, ⟨Err.noConfusion, fun heq => absurd heq.symm hne⟩, Err.noConfusion⟩
  · exact absurd rfl herr
  · rw [allows_of_uninitialized (by simp) hp] at hf
    cases hf

/-- Settles O26: each primitive command of the expansion leaves the unit that DECRYPT's body has there. -/
theorem decryptIsItsPrimitives : Obligations.DecryptIsItsPrimitives := by
  intro s t ad ct hp had hct h herr
  obtain ⟨hs, ad', ct', had', hct', hS, hok, hout⟩ := decrypt_next hp h herr
  obtain rfl : ad' = ad := Option.some.inj (had'.symm.trans had)
  obtain rfl : ct' = ct := Option.some.inj (hct'.symm.trans hct)
  obtain ⟨s1, ds, s2, hinit, habsorb, h2⟩ := exec_init_drives_absorb hp hs.keyReady ad'
  obtain ⟨s3, s4, ms, hdec, hdecp, h4, htext⟩ := h2.drives_decBytes ct'
  obtain ⟨s5, hfinal, hS5, htag, -⟩ := h4.issueFinal (bitLength ad'.length) (bitLength ct'.length)
  have hlen := decryptBytes_text_length Config.params s.key s.nonce ad' ct'
  rw [decryptBytes_eq] at hS hok hout hlen
  refine ⟨s1, s2, s3, s4, s5, ds, ms, hinit, habsorb, hdec, hdecp, hfinal, hS.trans hS5.symm, ?_, fun he => ?_⟩
  · rw [hok, htag]
  · have hback := s.out.readBytes_writeBytes 0 (ms.flatMap toBytes ++ (toBytes s4.dout).take (ct'.length % 16))
    rw [hout he]
    rw [htext] at hback ⊢
    rwa [hlen] at hback

end Sys2Proof.Machine
end

section
/-! PROOF. The exceptions and the independence of instances (60_exceptions.md R82 to R91): how InvalidSize and
ContractViolation are entered, that only the reset event leaves Faulted, what DECRYPT leaves whatever the received tag, and
steps of two instances. -/

namespace Sys2Proof.Machine

/-! ### InvalidSize (R82) -/

/-- Settles O32: in a launch with meaning the size check comes before every access. -/
theorem invalidSizeEntry : Obligations.InvalidSizeEntry := by
  intro i s hi hp hs h0 hl
  obtain ⟨k, hexec⟩ := exec_checksTheKey hi hp hl h0
  rw [hexec, checkSizes_neg hs]
  rfl

/-! ### ContractViolation (R84) -/

/-- A phase that the table does not list for a command does not allow it (41_cipherstate.md R60). -/
theorem not_allows_of_phase {i : Instr} {s : State}
    (h : (i ∈ [.init, .encrypt, .decrypt, .mac, .stream] ∧ s.phase ≠ .uninitialized) ∨
      ((i ∈ [.absorb, .enc, .dec, .final] ∨ ∃ n, i = .decp n) ∧ s.phase ≠ .initialized ∧ s.phase ≠ .processing)) :
    s.phase.allows i = false := by
  rcases h with ⟨hi, hp⟩ | ⟨hi, hp⟩
  · have hne : (s.phase == .uninitialized) = false := beq_eq_false_iff_ne.2 hp
    fin_cases hi <;> exact hne
  · have hidle : s.phase.takesData = false := by
      rw [← Bool.not_eq_true, takesData_iff, not_or]
      exact hp
    rcases hi with hi | ⟨n, rfl⟩
    · fin_cases hi <;> exact hidle
    · exact hidle

/-- DECP of no bytes raises ContractViolation in every phase (41_cipherstate.md R69). -/
theorem exec_decp_zero (s : State) : exec (.decp 0#4) s = .next (takeException .contract s) := rfl

/-- Settles O31: the command ends in ContractViolation before its work, and Faulted refuses every result. -/
theorem contractViolationEntry : Obligations.ContractViolationEntry := by
  intro i s h
  have hexec : exec i s = .next (takeException .contract s) := by
    rcases or_assoc.2 h with h | rfl
    · exact exec_contract (not_allows_of_phase h)
    · exact exec_decp_zero s
  have hf := contract_phase s
  exact ⟨_, hexec, rfl, rfl, rfl, resultPort_faulted hf .., resultPort_faulted hf .., hostReadOut_faulted hf⟩

/-! ### Faulted (R84, 70_reset_and_hazards.md R94) -/

/-- No command is allowed in Faulted. -/
theorem faulted_allows (i : Instr) : Phase.faulted.allows i = false := by cases i <;> rfl

/-- In Faulted every word, reserved or not, raises ContractViolation. -/
theorem issue_faulted {s : State} (h : s.phase = .faulted) (w : BitVec 8) :
    issue w s = .next (takeException .contract s) := by
  cases hw : decode w with
  | command i => rw [issue_command hw, exec_contract (h ▸ faulted_allows i)]
  | reserved why => exact issue_reserved hw s

/-- Every action of the host but the reset event keeps the instance in Faulted. -/
theorem hostAct_faulted {a : HostAction} {s t : State} (hp : s.phase = .faulted) (ha : a ≠ .reset)
    (h : hostAct a s = .next t) : t.phase = .faulted := by
  cases a with
  | write w =>
    obtain ⟨-, hphase, -⟩ := portWrite_next h
    exact hphase.trans hp
  | loadAd addr x | loadIn addr x =>
    rw [hostAct] at h
    obtain ⟨-, rfl⟩ := hostLoad_next h
    exact hp
  | placeBuffers v => cases h; exact hp
  | command w =>
    obtain rfl : takeException .contract s = t := Host.Outcome.next.inj ((issue_faulted hp w).symm.trans h)
    exact contract_phase s
  | read r | readOut addr => exact afterRead_next h ▸ hp
  | reset => exact absurd rfl ha
  | actWhileRunning w => cases h

/-- Settles O34: a step holds the state, or is one action of the host. -/
theorem faultedIsSticky : Obligations.FaultedIsSticky := by
  intro s hp
  refine ⟨fun t hreset h => ?_, fun w rest hw => ?_⟩
  · cases hhost : s.host with
    | nil => rw [step_of_host_nil hhost] at h; cases h; exact hp
    | cons a rest =>
      rw [step_of_host_cons hhost] at h
      exact hostAct_faulted (s := { s with host := rest }) hp (fun ha => hreset rest (ha ▸ hhost)) h
  · exact ⟨_, (step_of_host_cons hw).trans (issue_faulted (s := { s with host := rest }) hp w), rfl, rfl⟩

/-! ### AuthenticationFailure (R83, R89) -/

/-- In a ready launch DECRYPT with another tag does its work and then raises AuthenticationFailure. -/
theorem State.LaunchReady.exec_decrypt_of_ne {s : State} (h : s.LaunchReady) {ad ct : List Byte}
    (htag : s.written.tagIn = true) (had : s.ad.readBytes 0 s.adBytes.toNat = some ad)
    (hct : s.inp.readBytes 0 s.inBytes.toNat = some ct)
    (hne : s.tagIn ≠ (decryptBytes Config.params s.key s.nonce ad ct).tag) :
    exec .decrypt s =
      .next (takeException .authFail (decryptWork (decryptBytes Config.params s.key s.nonce ad ct) s)) :=
  (h.passes (by simp) _).trans <| (checkedKey_ready h.keyReady _).trans <|
    (withPort_of_some (tagInOperand_ready htag) _).trans <| (withBuffer_some had _).trans <|
    (withBuffer_some hct _).trans (if_neg fun heq => hne ((ctEq_tags _ _).1 heq))

section Work

variable {r : ModeResult} {s : State} (hlen : r.text.length = s.inBytes.toNat)

include hlen

/-- DECRYPT's work leaves every byte of `OUT` past the text. -/
theorem decryptWork_out_read_past {a : Nat} (ha : s.inBytes.toNat ≤ a) :
    (decryptWork r s).out.read a = s.out.read a :=
  s.out.read_writeBytes_past hlen (by simpa [blockAddr] using ha)

/-- `OUT` after AuthenticationFailure: zeros over the whole text, and the bytes past it as before the launch. -/
theorem authFail_decryptWork_out_read (a : Nat) :
    (takeException .authFail (decryptWork r s)).out.read a =
      if a < s.inBytes.toNat then some 0#8 else s.out.read a := by
  have hzeros : (List.replicate s.inBytes.toNat 0#8).length = s.inBytes.toNat := List.length_replicate
  change ((decryptWork r s).out.writeBytes 0 (List.replicate s.inBytes.toNat 0#8)).read a = _
  split
  · next ha => rw [Memory.read_writeBytes, if_pos (by omega), Nat.sub_zero, List.getElem?_replicate_of_lt ha]
  · next ha =>
    have hpast : s.inBytes.toNat ≤ a := Nat.not_lt.1 ha
    rw [Memory.read_writeBytes_past _ hzeros (by simpa [blockAddr] using hpast),
      decryptWork_out_read_past hlen hpast]

/-- The whole state after AuthenticationFailure, but for the bytes of `OUT`. -/
theorem authFail_decryptWork_of_length :
    takeException .authFail (decryptWork r s) = { s with
      S := r.cipher.S, out := (takeException .authFail (decryptWork r s)).out, outLen := s.inBytes.toNat
      keyLen := 0#16, key := [], nonceLen := 0#16, nonce := [], phase := .finalized, err := .authFail } := by
  rw [authFail_decryptWork, putOut_of_length hlen]
  rfl

end Work

/-- Settles O21: the comparator finds the tags different, and zeros are stored over the text. -/
theorem decryptRejects : Obligations.DecryptRejects := by
  intro s ad ct hp hk ho ha hn htag had hct r hne
  have hlen : r.text.length = s.inBytes.toNat :=
    (decryptBytes_text_length ..).trans (Memory.readBytes_length hct)
  have hout := authFail_decryptWork_out_read hlen
  exact ⟨_, State.LaunchReady.exec_decrypt_of_ne ⟨hp, hk, ho, ha, hn⟩ htag had hct hne,
    authFail_decryptWork_of_length hlen, fun a hlt => (hout a).trans (if_pos hlt),
    fun a hge => (hout a).trans (if_neg (Nat.not_lt.2 hge))⟩

/-- The two ways DECRYPT ends in Uninitialized: its work, which reads nothing of the received tag, with `ERR` and the
text's place in `OUT` settled by the comparison; or InvalidSize. -/
theorem decrypt_ways {s t : State} (hp : s.phase = .uninitialized) (h : exec .decrypt s = .next t) :
    (s.KeyReady ∧ ∃ ad ct err out, s.ad.readBytes 0 s.adBytes.toNat = some ad ∧
      s.inp.readBytes 0 s.inBytes.toNat = some ct ∧
      t = { decryptWork (decryptBytes Config.params s.key s.nonce ad ct) s with err := err, out := out } ∧
      ∀ a, s.inBytes.toNat ≤ a → out.read a = s.out.read a) ∨
    (¬ (s.keyLen = 32#16 ∧ s.nonceLen = 16#16) ∧ t = takeException .invalidSize s) := by
  rw [exec_eq_execWith] at h
  rcases cmdDecrypt_next h with ⟨-, -, -, -, hk, -, ad, ct, had, hct, hend⟩ | ⟨-, hs, rfl⟩ | ⟨hf, -⟩
  · have hlen := (decryptBytes_text_length Config.params s.key s.nonce ad ct).trans (Memory.readBytes_length hct)
    refine .inl ⟨hk, ad, ct, ?_⟩
    rcases hend with ⟨-, rfl⟩ | ⟨-, rfl⟩
    · exact ⟨_, _, had, hct, rfl, fun _ => decryptWork_out_read_past hlen⟩
    · exact ⟨_, _, had, hct, rfl, fun a hge =>
        (authFail_decryptWork_out_read hlen a).trans (if_neg (Nat.not_lt.2 hge))⟩
  · exact .inr ⟨hs, rfl⟩
  · rw [allows_of_uninitialized (by simp) hp] at hf
    cases hf

/-- Settles O30: both launches do the work of the same key, nonce and buffers, or both end in InvalidSize. -/
theorem decryptWorkIgnoresTag : Obligations.DecryptWorkIgnoresTag := by
  intro s t u b ht hu hf
  have hp : s.phase = .uninitialized := by
    by_contra hp
    rw [exec_contract (not_allows_of_phase (.inl ⟨by simp, hp⟩))] at ht
    cases ht
    exact hf rfl
  rcases decrypt_ways hp ht with ⟨hk, ad, ct, _, _, had, hct, rfl, hout⟩ | ⟨hs, rfl⟩
  · rcases decrypt_ways (s := { s with tagIn := b }) hp hu with ⟨-, ad', ct', _, _, had', hct', rfl, hout'⟩ | ⟨hs, -⟩
    · obtain rfl : ad' = ad := Option.some.inj (had'.symm.trans had)
      obtain rfl : ct' = ct := Option.some.inj (hct'.symm.trans hct)
      exact ⟨rfl, fun a hge => (hout' a hge).trans (hout a hge).symm⟩
    · exact absurd ⟨hk.keyLen, hk.nonceLen⟩ hs
  · rcases decrypt_ways (s := { s with tagIn := b }) hp hu with ⟨hk, -⟩ | ⟨-, rfl⟩
    · exact absurd ⟨hk.keyLen, hk.nonceLen⟩ hs
    · exact ⟨rfl, fun _ _ => rfl⟩

/-! ### Instances (R91) -/

section Instances

variable {n : Nat} {k : Fin n} {sys : System n}

/-- A step of an instance goes on exactly where its own step does, with its own state replaced. -/
theorem System.stepAt_eq_next {t : System n} :
    System.stepAt k sys = .next t ↔ ∃ v, step sys[k] = .next v ∧ t = sys.set k v := by
  rw [System.stepAt]
  cases step sys[k] <;> simp [eq_comm]

theorem System.stepAt_eq_fault {f : Fault} : System.stepAt k sys = .fault f ↔ step sys[k] = .fault f := by
  rw [System.stepAt]
  cases step sys[k] <;> simp

theorem System.stepAt_eq_refused {r : Refusal} : System.stepAt k sys = .refused r ↔ step sys[k] = .refused r := by
  rw [System.stepAt]
  cases step sys[k] <;> simp

theorem System.getElem_set_other {j : Fin n} (h : j ≠ k) (v : State) : (sys.set j v)[k] = sys[k] :=
  Vector.getElem_set_ne j.isLt k.isLt (Fin.val_ne_of_ne h)

end Instances

/-- Settles O53: a step reads and replaces its own instance's state only. -/
theorem instancesIndependent : Obligations.InstancesIndependent := by
  intro n sys t j k hne h
  obtain ⟨v, hv, rfl⟩ := System.stepAt_eq_next.1 h
  have hk : (sys.set j v)[k] = sys[k] := System.getElem_set_other hne v
  refine ⟨hk, fun f hf => ?_, fun r hr => ?_, fun u hu => ?_⟩
  · rw [System.stepAt_eq_fault] at hf ⊢
    rwa [hk]
  · rw [System.stepAt_eq_refused] at hr ⊢
    rwa [hk]
  · obtain ⟨w, hw, rfl⟩ := System.stepAt_eq_next.1 hu
    have hj : (sys.set j v)[j] = v := Vector.getElem_set_self j.isLt
    rw [hj]
    refine ⟨System.stepAt_eq_next.2 ⟨w, hk ▸ hw, ?_⟩, System.stepAt_eq_next.2 ⟨v, ?_, rfl⟩⟩
    · exact Vector.set_comm _ _ (Fin.val_ne_of_ne hne.symm)
    · rw [System.getElem_set_other hne.symm, hv]

end Sys2Proof.Machine
end

section
/-! PROOF. The reset event (70_reset_and_hazards.md R94): as a step, and what it leaves in the state. -/

namespace Sys2Proof.Machine

/-- With the reset event as the host's next action, a step is that event, whatever the phase. -/
theorem step_of_host_reset {s : State} {rest : List HostAction} (h : s.host = .reset :: rest) :
    step s = .next (resetEvent { s with host := rest }) := step_of_host_cons h

/-- Settles O7: the event's registers and port marks are those of `State.reset`, and the rest is the state's own. -/
theorem resetEventInEveryPhase : Obligations.ResetEventInEveryPhase := by
  intro s rest h
  obtain ⟨hphase, -, herr, -, hkeyLen, hkey, hnonceLen, hnonce, hadBytes, hinBytes, hwritten⟩ := resetValues
  obtain ⟨hdin, hdout, htag, htagIn, hadLenBits, hmsgLenBits⟩ := hwritten
  exact ⟨_, step_of_host_reset h, hphase, herr, hkeyLen, hkey, hnonceLen, hnonce, hadBytes, hinBytes, hdin, hdout, htag,
    htagIn, hadLenBits, hmsgLenBits, resetEvent_ad _, resetEvent_inp _, resetEvent_out _, resetEvent_host _⟩

end Sys2Proof.Machine
end
